-- ==== Sys2Proof/Word.lean ====
section
/-! DEFINITION. The one data width of JUC-3 (spec R7, R51) and the register and vector numbers. -/

namespace Sys2Proof

/-- A register value, memory word, operand, constant or address: a 16-bit pattern, arithmetic modulo
2^16 (R7). -/
abbrev Word := BitVec 16

/-- A general register number 0..7, the 3-bit fields `rs` and `rd` (R20, R86). -/
abbrev RegNum := Fin 8

/-- An interrupt vector number 0..7 (R55, R252). -/
abbrev VecNum := Fin 8

end Sys2Proof
end

