-- ==== Sys2Proof/Config.lean ====
section
/-! DEFINITION. What one implementation of JUC-3 fixes (the open parameters of spec R5), the constants
of the memory map, and the values the spec leaves unspecified, as constants with no body. -/

namespace Sys2Proof

/-- The open parameters of R5. They are data, so that a statement holds for every configuration;
a state carries the configuration of its machine and no step changes it (log 6). -/
structure Config where
  /-- RAM_WORDS: the addresses 0000H .. RAM_WORDS-1 are implemented RAM (R53). -/
  ramWords : Nat
  /-- HAS_EXT: the instruction-enhancement module is present (R98). -/
  hasExt : Bool
  /-- HAS_INT: the peripheral-interface module is present (R54, R98). -/
  hasInt : Bool
  /-- INT_SAVES_PSW: interrupt entry also pushes PSW and RETI pops it (R232, R257). -/
  intSavesPsw : Bool
deriving DecidableEq, Repr

/-- The bounds R5 puts on the parameters: 0031H <= RAM_WORDS <= FF00H, and HAS_INT requires
HAS_EXT. -/
abbrev Config.wf (c : Config) : Prop :=
  0x31 ≤ c.ramWords ∧ c.ramWords ≤ 0xFF00 ∧ (c.hasInt = true → c.hasExt = true)

/-- The full 38-instruction machine: HAS_EXT, HAS_INT and INT_SAVES_PSW at R5's defaults, and RAM at
every address below the I/O region. DESIGN CHOICE (log 6), unsafe: the spec gives RAM_WORDS no default. -/
def Config.full : Config :=
  { ramWords := 0xFF00, hasExt := true, hasInt := true, intSavesPsw := false }

/-- IO_BASE: the I/O interface occupies FF00H~FFFFH (R5, R52). -/
abbrev ioBase : Nat := 0xFF00

/-- RESET_PC (R5, R37). -/
def resetPc : Word := 0x0030

/-- RESET_SP (R5, R37). -/
def resetSp : Word := 0x0030

/-- One access to the I/O region, as the environment sees it (R54). -/
inductive IoEvent where
  /-- A read of the address, and the value the oracle answered. -/
  | read (a v : Word)
  /-- A write of the value to the address. -/
  | write (a v : Word)
deriving DecidableEq, Repr

/-- A microinstruction: the fields F0~F9 of the table of R286, 32 bits in all. The spec gives the
widths of the fields and no bit positions, so the word stays a record. -/
structure MicroInstr where
  /-- F0 XXoe, which register drives the internal bus. -/
  xxoe : BitVec 3
  /-- F1 XXce, which register loads from the bus. -/
  xxce : BitVec 3
  /-- F2 ALU. -/
  alu : BitVec 4
  /-- F3 PSW. -/
  psw : BitVec 3
  /-- F4 S/D, which register-number field addresses the GRS. -/
  sd : BitVec 1
  /-- F5 SB. -/
  sb : BitVec 2
  /-- F6 PC. -/
  pc : BitVec 1
  /-- F7 Mem. -/
  mem : BitVec 3
  /-- F8 BM, the branch mode. -/
  bm : BitVec 3
  /-- F9 NA, the next micro-address. -/
  na : BitVec 9
deriving DecidableEq, Repr, Inhabited

/-- any1() of R8: the free value of a flag marked `×` and of every other unspecified bit, drawn with
the number of the draw. Nothing is known of it (log 9). -/
opaque Config.freeBit : Nat → Bool

/-- any16() of R8: an unspecified word, drawn with the number of the draw (log 20). -/
opaque Config.freeWord : Nat → Word

/-- What a RAM word that nothing has written reads as (R37, R60): unspecified, drawn with the number
of the draw and the address (log 2). -/
opaque Config.unwrittenWord : Nat → Word → Word

/-- IoRead(addr, history) of R54: the oracle's answer to a read of an I/O address, given the accesses
so far, the number of the draw and the address (log 8). -/
opaque Config.ioRead : List IoEvent → Nat → Word → Word

/-- An unspecified microinstruction: what µIR holds is not in the spec (R4, R37; log 17). -/
opaque Config.freeMicroInstr : Nat → MicroInstr

/-- An unspecified micro-address: µAR after HALT (log 17). -/
opaque Config.freeMicroAddr : Nat → BitVec 9

/-- Which of the 15 entries of the single-operand instructions a 6-bit opcode has: the mapping is lost
(R288; log 21), so nothing is known of it but that it depends on the opcode. -/
opaque Config.singleEntry : BitVec 6 → Fin 15

end Sys2Proof
end

