-- ==== Sys2Proof/Syntax.lean ====
section
/-! DEFINITION. The 38 instructions of JUC-3 as syntax (spec R80~R94): an opcode and one or two address
codes. The constant words of an instruction are not part of its first word; an operand fetches its
own through PC while it is resolved (R111, R114; log 13). -/

namespace Sys2Proof

/-- An address code: the mode M and the register number R of R86, R87. The four modes that use no
register carry none (R91). -/
inductive Operand where
  /-- M = 000, `Rn`. -/
  | reg (n : RegNum)
  /-- M = 001, `(Rn)`. -/
  | ind (n : RegNum)
  /-- M = 010, `(Rn)+`. -/
  | autoInc (n : RegNum)
  /-- M = 011, `#imm`. -/
  | imm
  /-- M = 100, `addr`. -/
  | direct
  /-- M = 101, `(addr)`. -/
  | indirect
  /-- M = 110, `disp(Rn)`. -/
  | indexed (n : RegNum)
  /-- M = 111, `disp(PC)`. -/
  | relative
deriving DecidableEq, Repr

/-- One constructor per row of the opcode table, R92~R94. -/
inductive Instr where
  -- format D (R92)
  | mov (src dst : Operand)
  | add (src dst : Operand)
  | addc (src dst : Operand)
  | sub (src dst : Operand)
  | subb (src dst : Operand)
  | and (src dst : Operand)
  | or (src dst : Operand)
  | xor (src dst : Operand)
  | cmp (src dst : Operand)
  | test (src dst : Operand)
  -- format S (R93)
  | sar (dst : Operand)
  | shl (dst : Operand)
  | shr (dst : Operand)
  | rol (dst : Operand)
  | ror (dst : Operand)
  | rcl (dst : Operand)
  | rcr (dst : Operand)
  | jc (dst : Operand)
  | jnc (dst : Operand)
  | jo (dst : Operand)
  | jno (dst : Operand)
  | jz (dst : Operand)
  | jnz (dst : Operand)
  | js (dst : Operand)
  | jns (dst : Operand)
  | jmp (dst : Operand)
  | inc (dst : Operand)
  | dec (dst : Operand)
  | not (dst : Operand)
  | push (dst : Operand)
  | pop (dst : Operand)
  | call (dst : Operand)
  -- format Z (R94)
  | halt
  | nop
  | ret
  | reti
  | ei
  | di
deriving DecidableEq, Repr

/-- The three instruction formats (R81~R84). -/
inductive Format where
  /-- D, double-operand. -/
  | double
  /-- S, single-operand. -/
  | single
  /-- Z, zero-operand. -/
  | zero
deriving DecidableEq, Repr

/-- The module an instruction belongs to (R98). -/
inductive Module where
  /-- The basic module. -/
  | basic
  /-- `*`, the instruction-enhancement module. -/
  | ext
  /-- `**`, the interrupt-related instructions of the peripheral-interface module. -/
  | int
deriving DecidableEq, Repr

/-- Module membership, R98. -/
def Instr.module : Instr → Module
  | .mov _ _ | .add _ _ | .addc _ _ | .sub _ _ | .subb _ _ => .basic
  | .and _ _ | .or _ _ | .xor _ _ | .cmp _ _ | .test _ _ => .basic
  | .sar _ | .shl _ | .jz _ | .jnz _ | .jmp _ | .inc _ | .dec _ | .not _ => .basic
  | .halt | .nop => .basic
  | .shr _ | .rol _ | .ror _ | .rcl _ | .rcr _ => .ext
  | .jc _ | .jnc _ | .jo _ | .jno _ | .js _ | .jns _ => .ext
  | .push _ | .pop _ | .call _ | .ret => .ext
  | .reti | .ei | .di => .int

/-- The source operand, in format D only (R82). -/
def Instr.src? : Instr → Option Operand
  | .mov s _ | .add s _ | .addc s _ | .sub s _ | .subb s _ => some s
  | .and s _ | .or s _ | .xor s _ | .cmp s _ | .test s _ => some s
  | .sar _ | .shl _ | .shr _ | .rol _ | .ror _ | .rcl _ | .rcr _ => none
  | .jc _ | .jnc _ | .jo _ | .jno _ | .jz _ | .jnz _ | .js _ | .jns _ | .jmp _ => none
  | .inc _ | .dec _ | .not _ | .push _ | .pop _ | .call _ => none
  | .halt | .nop | .ret | .reti | .ei | .di => none

/-- The destination operand, in formats D and S (R82, R83). -/
def Instr.dst? : Instr → Option Operand
  | .mov _ d | .add _ d | .addc _ d | .sub _ d | .subb _ d => some d
  | .and _ d | .or _ d | .xor _ d | .cmp _ d | .test _ d => some d
  | .sar d | .shl d | .shr d | .rol d | .ror d | .rcl d | .rcr d => some d
  | .jc d | .jnc d | .jo d | .jno d | .jz d | .jnz d | .js d | .jns d | .jmp d => some d
  | .inc d | .dec d | .not d | .push d | .pop d | .call d => some d
  | .halt | .nop | .ret | .reti | .ei | .di => none

/-- The format: D has a source and a destination, S a destination only, Z neither (R81). -/
def Instr.format (i : Instr) : Format :=
  match i.src?, i.dst? with
  | some _, _ => .double
  | none, some _ => .single
  | none, none => .zero

/-- HasConst of R88: M = 011..111 needs a constant word. -/
def Operand.hasConst : Operand → Bool
  | .reg _ | .ind _ | .autoInc _ => false
  | .imm | .direct | .indirect | .indexed _ | .relative => true

/-- How many constant words an operand adds (R89). -/
def Operand.constWords (o : Operand) : Nat := if o.hasConst then 1 else 0

/-- How many constant words follow the first word: the source's, then the destination's (R89, R90). -/
def Instr.constCount (i : Instr) : Nat :=
  (i.src?.elim 0 Operand.constWords) + (i.dst?.elim 0 Operand.constWords)

/-- Instruction length in words, R89. -/
def Instr.length (i : Instr) : Nat := 1 + i.constCount

/-- A jump or CALL, whose operand is a target (R200, R220). -/
def Instr.isTransfer : Instr → Bool
  | .jc _ | .jnc _ | .jo _ | .jno _ | .jz _ | .jnz _ | .js _ | .jns _ | .jmp _ | .call _ => true
  | .mov _ _ | .add _ _ | .addc _ _ | .sub _ _ | .subb _ _ => false
  | .and _ _ | .or _ _ | .xor _ _ | .cmp _ _ | .test _ _ => false
  | .sar _ | .shl _ | .shr _ | .rol _ | .ror _ | .rcl _ | .rcr _ => false
  | .inc _ | .dec _ | .not _ | .push _ | .pop _ => false
  | .halt | .nop | .ret | .reti | .ei | .di => false

/-- A whole instruction as it lies in memory: the instruction of its first word and its constant words
in fetch order (R80, R90). -/
structure Code where
  instr : Instr
  consts : List Word
deriving DecidableEq, Repr

end Sys2Proof
end

