-- ==== Sys2Proof/WellFormed.lean ====
section
/-! DEFINITION. Which instructions are encodings of the machine at all: the destination is not
immediate (spec R96) and the instruction's module is present (R98). A register operand of a jump is
an encoding; executing it is refused (R200; log 12). -/

namespace Sys2Proof

/-- Whether the machine has the module (R5, R98). -/
def Config.has (c : Config) : Module → Bool
  | .basic => true
  | .ext => c.hasExt
  | .int => c.hasInt

/-- Immediate mode should not be used as a destination mode, whatever the opcode (R96). -/
def Instr.dstLegal (i : Instr) : Bool := i.dst? != some .imm

/-- The two checks of an instruction: module (R98) and destination mode (R96). -/
def Instr.WellFormed (c : Config) (i : Instr) : Bool := c.has i.module && i.dstLegal

/-- A whole instruction carries exactly the constant words its modes call for (R89). -/
def Code.WellFormed (c : Config) (a : Code) : Bool :=
  a.instr.WellFormed c && a.consts.length == a.instr.constCount

end Sys2Proof
end

