-- ==== Sys2Proof/Decode.lean ====
section
/-! DEFINITION. Decoding an instruction word and encoding an instruction (spec R80~R101). Decoding is
total: an unassigned word, a word of an absent module and an immediate destination are rejected by
name (R95, R96, R98). -/

namespace Sys2Proof

/-- Why an instruction word is rejected (R95, R96, R98). -/
inductive Illegal where
  | reservedEncoding
  | immediateDestination
deriving DecidableEq, Repr

/-- Why a list of words is no whole instruction: its first word is rejected, or a word is missing
(log 24). -/
inductive DecodeError where
  | illegal (e : Illegal)
  | truncated
deriving DecidableEq, Repr

/-! Fields of the instruction word, R82~R84, as numbers. -/

/-- `ir[15:12]`. -/
def fieldOp (w : Word) : Nat := (w.extractLsb' 12 4).toNat
/-- `ir[11:6]`. -/
def fieldSop (w : Word) : Nat := (w.extractLsb' 6 6).toNat
/-- `ir[5:0]`. -/
def fieldZop (w : Word) : Nat := (w.extractLsb' 0 6).toNat
/-- `ms = ir[11:9]`. -/
def fieldMs (w : Word) : BitVec 3 := w.extractLsb' 9 3
/-- `rs = ir[8:6]`. -/
def fieldRs (w : Word) : BitVec 3 := w.extractLsb' 6 3
/-- `md = ir[5:3]`. -/
def fieldMd (w : Word) : BitVec 3 := w.extractLsb' 3 3
/-- `rd = ir[2:0]`. -/
def fieldRd (w : Word) : BitVec 3 := w.extractLsb' 0 3

/-- A register field as a register number (R86). -/
def regOfField (r : BitVec 3) : RegNum := r.toFin

/-- The address code `{M, R}`, table of R87. The register field is ignored in the modes that use no
register (R91; D7). -/
def decodeOperand (m r : BitVec 3) : Operand :=
  match m.toNat with
  | 0 => .reg (regOfField r)
  | 1 => .ind (regOfField r)
  | 2 => .autoInc (regOfField r)
  | 3 => .imm
  | 4 => .direct
  | 5 => .indirect
  | 6 => .indexed (regOfField r)
  | _ => .relative

/-- Format D opcodes, R92. -/
def doubleOp : Nat → Option (Operand → Operand → Instr)
  | 0b0001 => some .mov
  | 0b0010 => some .add
  | 0b0011 => some .addc
  | 0b0100 => some .sub
  | 0b0101 => some .subb
  | 0b0110 => some .and
  | 0b0111 => some .or
  | 0b1000 => some .xor
  | 0b1001 => some .cmp
  | 0b1010 => some .test
  | _ => none

/-- Format S opcodes, R93. -/
def singleOp : Nat → Option (Operand → Instr)
  | 0b000001 => some .sar
  | 0b000010 => some .shl
  | 0b000011 => some .shr
  | 0b000100 => some .rol
  | 0b000101 => some .ror
  | 0b000110 => some .rcl
  | 0b000111 => some .rcr
  | 0b001000 => some .jc
  | 0b001001 => some .jnc
  | 0b001010 => some .jo
  | 0b001011 => some .jno
  | 0b001100 => some .jz
  | 0b001101 => some .jnz
  | 0b001110 => some .js
  | 0b001111 => some .jns
  | 0b010000 => some .jmp
  | 0b010001 => some .inc
  | 0b010010 => some .dec
  | 0b010011 => some .not
  | 0b011000 => some .push
  | 0b011001 => some .pop
  | 0b011010 => some .call
  | _ => none

/-- Format Z opcodes, R94. -/
def zeroOp : Nat → Option Instr
  | 0b000000 => some .halt
  | 0b000001 => some .nop
  | 0b000010 => some .ret
  | 0b000011 => some .reti
  | 0b000100 => some .ei
  | 0b000101 => some .di
  | _ => none

/-- The class of an instruction word, R85. -/
def wordFormat (w : Word) : Format :=
  if fieldOp w ≠ 0 then .double
  else if fieldSop w ≠ 0 then .single
  else .zero

/-- The instruction of a word by the opcode map alone: none for an unassigned opcode (R95). -/
def instrOfWord (w : Word) : Option Instr :=
  let src := decodeOperand (fieldMs w) (fieldRs w)
  let dst := decodeOperand (fieldMd w) (fieldRd w)
  match wordFormat w with
  | .double => (doubleOp (fieldOp w)).map fun mk => mk src dst
  | .single => (singleOp (fieldSop w)).map fun mk => mk dst
  | .zero => zeroOp (fieldZop w)

/-- Decoding an instruction word on a machine of configuration `c`: the encoding must be assigned and
its module present (R95, R98), then the destination must not be immediate (R96, R110). -/
def decodeWord (c : Config) (w : Word) : Except Illegal Instr :=
  match instrOfWord w with
  | none => .error .reservedEncoding
  | some i =>
    if !c.has i.module then .error .reservedEncoding
    else if !i.dstLegal then .error .immediateDestination
    else .ok i

/-- Decoding a whole instruction from the words at ascending addresses: the instruction word, then its
constant words; also the words left over (R80, R89, R90). -/
def decode (c : Config) : List Word → Except DecodeError (Code × List Word)
  | [] => .error .truncated
  | w :: rest =>
    match decodeWord c w with
    | .error e => .error (.illegal e)
    | .ok i =>
      if rest.length < i.constCount then .error .truncated
      else .ok (⟨i, rest.take i.constCount⟩, rest.drop i.constCount)

/-! Encoding, R101. -/

/-- The mode code M of R87. -/
def encodeMode : Operand → BitVec 3
  | .reg _ => 0b000
  | .ind _ => 0b001
  | .autoInc _ => 0b010
  | .imm => 0b011
  | .direct => 0b100
  | .indirect => 0b101
  | .indexed _ => 0b110
  | .relative => 0b111

/-- The register field: n where the mode uses a register, else 000 (R91, R101). -/
def encodeReg : Operand → BitVec 3
  | .reg n | .ind n | .autoInc n | .indexed n => BitVec.ofFin n
  | .imm | .direct | .indirect | .relative => 0b000

/-- `ir = op << 12 | ms << 9 | rs << 6 | md << 3 | rd` (R82, R101). -/
def assembleD (op : BitVec 4) (src dst : Operand) : Word :=
  op ++ encodeMode src ++ encodeReg src ++ encodeMode dst ++ encodeReg dst

/-- `ir = sop << 6 | md << 3 | rd` (R83, R101). -/
def assembleS (sop : BitVec 6) (dst : Operand) : Word :=
  0b0000#4 ++ sop ++ encodeMode dst ++ encodeReg dst

/-- `ir = zop` (R84, R101). -/
def assembleZ (zop : BitVec 6) : Word := 0#10 ++ zop

/-- The instruction word of an instruction (R92~R94, R101). -/
def encodeWord : Instr → Word
  | .mov s d => assembleD 0b0001 s d
  | .add s d => assembleD 0b0010 s d
  | .addc s d => assembleD 0b0011 s d
  | .sub s d => assembleD 0b0100 s d
  | .subb s d => assembleD 0b0101 s d
  | .and s d => assembleD 0b0110 s d
  | .or s d => assembleD 0b0111 s d
  | .xor s d => assembleD 0b1000 s d
  | .cmp s d => assembleD 0b1001 s d
  | .test s d => assembleD 0b1010 s d
  | .sar d => assembleS 0b000001 d
  | .shl d => assembleS 0b000010 d
  | .shr d => assembleS 0b000011 d
  | .rol d => assembleS 0b000100 d
  | .ror d => assembleS 0b000101 d
  | .rcl d => assembleS 0b000110 d
  | .rcr d => assembleS 0b000111 d
  | .jc d => assembleS 0b001000 d
  | .jnc d => assembleS 0b001001 d
  | .jo d => assembleS 0b001010 d
  | .jno d => assembleS 0b001011 d
  | .jz d => assembleS 0b001100 d
  | .jnz d => assembleS 0b001101 d
  | .js d => assembleS 0b001110 d
  | .jns d => assembleS 0b001111 d
  | .jmp d => assembleS 0b010000 d
  | .inc d => assembleS 0b010001 d
  | .dec d => assembleS 0b010010 d
  | .not d => assembleS 0b010011 d
  | .push d => assembleS 0b011000 d
  | .pop d => assembleS 0b011001 d
  | .call d => assembleS 0b011010 d
  | .halt => assembleZ 0b000000
  | .nop => assembleZ 0b000001
  | .ret => assembleZ 0b000010
  | .reti => assembleZ 0b000011
  | .ei => assembleZ 0b000100
  | .di => assembleZ 0b000101

/-- The words of a whole instruction: its instruction word, then its constants (R90, R101). -/
def encode (a : Code) : List Word := encodeWord a.instr :: a.consts

/-- The words of an instruction given as one number whose bit 0 is the least significant bit of the
first word; bits at and above `nbits` are 0. Three words, the longest instruction (R80). -/
def tableWords (nbits w : Nat) : List Word :=
  let v := w % 2 ^ nbits
  [BitVec.ofNat 16 v, BitVec.ofNat 16 (v / 2 ^ 16), BitVec.ofNat 16 (v / 2 ^ 32)]

/-- The instruction this decoder reads from a word of the opcode table, on the full machine. -/
def decodeTableWord (nbits w : Nat) : Option Instr :=
  match decode Config.full (tableWords nbits w) with
  | .ok (a, _) => some a.instr
  | .error _ => none

end Sys2Proof
end

