-- ==== Sys2Proof/Machine/State.lean ====
section
/-! DEFINITION. The state of JUC-3 as plain data (spec 10_state.md R20~R38), the reasons a step can
stop, and the state after reset (R37, R280). -/

namespace Sys2Proof.Machine

/-- The program status word: four flags, no layout (R25). -/
structure Psw where
  /-- CF, the borrow/carry flag. -/
  cf : Bool
  /-- OF, the overflow flag. -/
  of : Bool
  /-- SF, the sign flag. -/
  sf : Bool
  /-- ZF, the zero flag. -/
  zf : Bool
deriving DecidableEq, Repr

/-- The hidden data-path registers of R34 besides IR. The spec gives their names only and no rule reads
them; 16 bits each, the width of the words on the bus (log 17, PRESUMED). -/
structure DataPath where
  /-- AR, the memory address register. -/
  ar : Word
  /-- DR, the memory data register. -/
  dr : Word
  /-- RX, a temporary. -/
  rx : Word
  /-- RY, a temporary. -/
  ry : Word
  /-- RF, a temporary. -/
  rf : Word
deriving DecidableEq, Repr

/-- What is below the instructions: the microprogram controller's own state (R35, R281, R285) and the
data path's hidden registers (R34). -/
structure MicroState where
  /-- µAR, the micro-address register. -/
  uar : BitVec 9
  /-- µIR, the microinstruction register. -/
  uir : MicroInstr
  /-- The level of clock phase CP1. -/
  cp1 : Bool
  /-- The level of clock phase CP2. -/
  cp2 : Bool
  /-- AR, DR, RX, RY, RF. -/
  path : DataPath
deriving DecidableEq, Repr

/-- Main memory: the words written so far (or loaded), by word address. The unit is the 16-bit word
(R33, R50, R51; log 1). An address that is not listed holds no known word: reading it gives a free
value (R37, R60; log 2), so no listed entry can equal what it would read as unlisted. -/
abbrev Memory := List (Nat × Word)

/-- The canonical form of a memory: addresses strictly rising. -/
abbrev Memory.wf (m : Memory) : Prop := (m.map Prod.fst).Pairwise (· < ·)

/-- The machine state. The last five fields are no state of the CPU: the configuration, the
environment's coming answers to the interrupt checks, the record of I/O accesses, and the number of
free values drawn (R8, R38; logs 6, 7, 8, 18). -/
structure State where
  /-- R0~R7 (R20). -/
  regs : Vector Word 8
  /-- PC (R22). -/
  pc : Word
  /-- SP (R29). -/
  sp : Word
  /-- PSW (R25). -/
  psw : Psw
  /-- IE, the interrupt-enable flag (R31). -/
  ie : Bool
  /-- The run/stop bit of the model (R32). -/
  halted : Bool
  /-- Main memory (R33). -/
  mem : Memory
  /-- IR, the first word of the current instruction (R34, R110). -/
  ir : Word
  /-- The microprogram controller and the hidden registers (R34, R35, R281). -/
  micro : MicroState
  /-- The open parameters of R5, fixed for the machine. -/
  cfg : Config
  /-- The answers of IntSource to the coming interrupt checks, first to come first (R252). When the
  list is empty there is no request. -/
  intInputs : List (Option VecNum)
  /-- The I/O accesses made so far, newest first (R54). -/
  ioTrace : List IoEvent
  /-- How many free values have been drawn (R8). -/
  draws : Nat
deriving DecidableEq, Repr

/-- Why the machine stops by itself. -/
inductive Fault where
  /-- Raised by `step` in a halted state: after HALT the CPU takes no further step (R110, R230). Safe:
  the machine stops where the spec says there is no step (log 10). -/
  | halted
deriving DecidableEq, Repr

/-- Why a step has no meaning: the five `refuse` reasons of R251, and the instructions without a
meaning in this model (none). Each is safe: the model stops where the spec refuses (log 11). -/
inductive Refusal where
  /-- Raised by `exec` for an instruction that has no meaning in the model. Safe. -/
  | notModelled (mnemonic : String)
  /-- Raised by the fetch: unassigned opcode, or an instruction of an absent module (R95, R98). Safe. -/
  | reservedEncoding
  /-- Raised by the fetch, and by resolving a destination: destination mode 011 (R96). Safe. -/
  | immediateDestination
  /-- Raised by JMP, the conditional jumps and CALL with a register-mode operand (R200). Safe. -/
  | jumpToRegisterOperand
  /-- Raised by every read or write of an address that is neither implemented RAM nor I/O (R53, R60).
  Safe. -/
  | unimplementedAddress (a : Word)
deriving DecidableEq, Repr

/-- The controller after reset: µAR = 0, CP1 high, CP2 low (R37, R281). µIR and the data path's
registers are not given: all 0, DESIGN CHOICE (log 4), unsafe. -/
def MicroState.reset : MicroState :=
  { uar := 0
    uir := { xxoe := 0, xxce := 0, alu := 0, psw := 0, sd := 0, sb := 0, pc := 0, mem := 0, bm := 0, na := 0 }
    cp1 := true
    cp2 := false
    path := { ar := 0, dr := 0, rx := 0, ry := 0, rf := 0 } }

/-- The machine right after reset (R37, R280): PC = SP = 0030H, IE = 0, not halted, no memory word
known. R0~R7, the flags and IR are unspecified in the spec and 0 here: DESIGN CHOICE (logs 3, 4),
unsafe. The configuration is the full machine (log 6) and no interrupt request is announced (log 7):
DESIGN CHOICE. -/
def State.reset : State :=
  { regs := Vector.replicate 8 0
    pc := resetPc
    sp := resetSp
    psw := { cf := false, of := false, sf := false, zf := false }
    ie := false
    halted := false
    mem := []
    ir := 0
    micro := MicroState.reset
    cfg := Config.full
    intInputs := []
    ioTrace := []
    draws := 0 }

/-- An outcome that carries a value. -/
abbrev Res (α : Type) := Host.Outcome α Fault Refusal

end Sys2Proof.Machine
end

