-- ==== Sys2Proof/Machine/Memory.lean ====
section
/-! DEFINITION. The stored words of main memory (spec R33, R60) and the address map (R52~R54). -/

namespace Sys2Proof.Machine

/-- The word stored at an address, if any was. -/
def Memory.read : Memory → Nat → Option Word
  | [], _ => none
  | (k, x) :: m, a => if a = k then some x else Memory.read m a

/-- Storing a word, keeping the addresses strictly rising. -/
def Memory.write : Memory → Nat → Word → Memory
  | [], a, v => [(a, v)]
  | (k, x) :: m, a, v =>
    if a < k then (a, v) :: (k, x) :: m
    else if a = k then (a, v) :: m
    else (k, x) :: Memory.write m a v

/-- The words stored at ascending addresses from `a` on, modulo 2^16 (R57, R90). -/
def loadWords (m : Memory) (a : Word) : List Word → Memory
  | [] => m
  | w :: later => loadWords (Memory.write m a.toNat w) (a + 1) later

/-- Implemented RAM: addresses 0000H .. RAM_WORDS-1 (R53, R60). -/
def isRam (c : Config) (a : Word) : Bool := decide (a.toNat < c.ramWords)

/-- The I/O region FF00H~FFFFH, present with HAS_INT (R54, R60). -/
def isIo (c : Config) (a : Word) : Bool := c.hasInt && decide (ioBase ≤ a.toNat)

/-- An address that a word can be read from or written to; R60 refuses every other. -/
def accessible (c : Config) (a : Word) : Bool := isRam c a || isIo c a

end Sys2Proof.Machine
end

