-- ==== Sys2Proof/Machine/Ops.lean ====
section
/-! DEFINITION. The named operations every meaning is made of: registers, free values, memory and I/O
access (spec R60), instruction fetch (R111), the stack (R140), interrupt entry, interrupt check and
the return from an interrupt (R232, R254, R257), and the reset event (R280). -/

namespace Sys2Proof.Machine

/-- Go on with the value of an outcome; a fault or a refusal ends the step (R130). -/
def andThen {α β : Type} (o : Res α) (k : α → Res β) : Res β :=
  match o with
  | .next a => k a
  | .fault f => .fault f
  | .refused r => .refused r

/-! General registers (R20, R21). -/

/-- `x[n]`. -/
def State.reg (s : State) (n : RegNum) : Word := s.regs[n]

/-- `x[n] <- v`. -/
def State.setReg (s : State) (n : RegNum) (v : Word) : State := { s with regs := s.regs.set n v }

/-! Free values (R8, R9). -/

/-- The next any1(). -/
def State.bit (s : State) : Bool := Config.freeBit s.draws

/-- The state after `k` free values have been drawn. -/
def State.drew (s : State) (k : Nat) : State := { s with draws := s.draws + k }

/-! Memory and I/O (R60). -/

/-- The word a read of an accessible address answers: the stored RAM word, an unspecified word where
RAM holds nothing known, and the oracle's answer in the I/O region (R54, R60). -/
def State.peek (s : State) (a : Word) : Word :=
  if isRam s.cfg a then (Memory.read s.mem a.toNat).getD (Config.unwrittenWord s.draws a)
  else Config.ioRead s.ioTrace s.draws a

/-- The state after a read of an accessible address. RAM reads have no side effect (R61); an I/O read
is an access the device sees (R54). -/
def State.afterRead (s : State) (a : Word) : State :=
  if isRam s.cfg a then
    if (Memory.read s.mem a.toNat).isSome then s else s.drew 1
  else { s.drew 1 with ioTrace := .read a (s.peek a) :: s.ioTrace }

/-- The state after a write to an accessible address: the RAM word, or a recorded I/O event that
changes no memory (R54, R60). -/
def State.store (s : State) (a v : Word) : State :=
  if isRam s.cfg a then { s with mem := Memory.write s.mem a.toNat v }
  else { s with ioTrace := .write a v :: s.ioTrace }

/-- `MemRead(a, 1)`, R60. -/
def memRead (a : Word) (s : State) : Res (Word × State) :=
  if accessible s.cfg a then .next (s.peek a, s.afterRead a)
  else .refused (.unimplementedAddress a)

/-- `MemWrite(a, 1, v)`, R60. -/
def memWrite (a v : Word) (s : State) : Res State :=
  if accessible s.cfg a then .next (s.store a v)
  else .refused (.unimplementedAddress a)

/-! Instruction fetch (R111). -/

/-- `FetchWord()`: the word at PC, and PC advanced by one (R23, R111). -/
def fetchWord (s : State) : Res (Word × State) :=
  andThen (memRead s.pc s) fun p => .next (p.1, { p.2 with pc := p.2.pc + 1 })

/-- Fetching and decoding an instruction word into IR (R110). Whatever the opcode map does not assign,
the machine's modules do not hold, or R96 excludes is refused. -/
def fetchInstr (s : State) : Res (Instr × State) :=
  andThen (fetchWord s) fun p =>
    match decodeWord s.cfg p.1 with
    | .ok i => .next (i, { p.2 with ir := p.1 })
    | .error .reservedEncoding => .refused .reservedEncoding
    | .error .immediateDestination => .refused .immediateDestination

/-! The stack (R140): full-descending, SP holds the address of the top word. -/

/-- `Push(v)`. -/
def push (v : Word) (s : State) : Res State :=
  memWrite (s.sp - 1) v { s with sp := s.sp - 1 }

/-- `Pop()`. -/
def pop (s : State) : Res (Word × State) :=
  andThen (memRead s.sp s) fun p => .next (p.1, { p.2 with sp := p.2.sp + 1 })

/-! Interrupts (R252~R259). -/

/-- PSW as the word that interrupt entry pushes: bit 3 = SF, bit 2 = ZF, bit 1 = OF, bit 0 = CF, the
upper bits 0 (R257; D40). -/
def pswWord (p : Psw) : Word :=
  0#12 ++ BitVec.ofBool p.sf ++ BitVec.ofBool p.zf ++ BitVec.ofBool p.of ++ BitVec.ofBool p.cf

/-- PSW from a popped word, bits 15..4 ignored (R232; D40). -/
def pswOfWord (w : Word) : Psw :=
  { cf := w.getLsbD 0, of := w.getLsbD 1, zf := w.getLsbD 2, sf := w.getLsbD 3 }

/-- Vector n is the word at address n (R55, R255). -/
def vectorAddr (n : VecNum) : Word := BitVec.ofNat 16 n.val

/-- `InterruptEntry(n)`, the interrupt-response hidden instruction (R257). -/
def interruptEntry (n : VecNum) (s : State) : Res State :=
  andThen (push s.pc s) fun s₁ =>
  andThen (if s₁.cfg.intSavesPsw then push (pswWord s₁.psw) s₁ else .next s₁) fun s₂ =>
  andThen (memRead (vectorAddr n) { s₂ with ie := false }) fun p =>
  .next { p.2 with pc := p.1 }

/-- `InterruptCheck()`, the last action of a step (R254): not made without HAS_INT or when halted;
otherwise IntSource answers once, and a request is accepted exactly when IE = 1 (R253). -/
def interruptCheck (s : State) : Res State :=
  if !s.cfg.hasInt || s.halted then .next s
  else match s.intInputs with
    | [] => .next s
    | none :: later => .next { s with intInputs := later }
    | some n :: later =>
      if s.ie then interruptEntry n { s with intInputs := later }
      else .next { s with intInputs := later }

/-- The return from an interrupt (R232, R259): pop PSW if INT_SAVES_PSW, pop PC, set IE. -/
def returnFromInterrupt (s : State) : Res State :=
  andThen (if s.cfg.intSavesPsw then
      andThen (pop s) fun p => .next { p.2 with psw := pswOfWord p.1 }
    else .next s) fun s₁ =>
  andThen (pop s₁) fun p =>
  .next { p.2 with pc := p.1, ie := true }

/-! The end of a step, and reset. -/

/-- Unspecified contents of AR, DR, RX, RY and RF, five draws from number `n` on (R34, R37; log 17). -/
def freePath (n : Nat) : DataPath :=
  { ar := Config.freeWord n, dr := Config.freeWord (n + 1), rx := Config.freeWord (n + 2),
    ry := Config.freeWord (n + 3), rf := Config.freeWord (n + 4) }

/-- What a finished step leaves below the instructions: µAR at the entry 000H of the next fetch, the
micro-cycle over (CP1 high, CP2 low); the contents of µIR and of the data path's registers are not in
the spec, and after HALT nothing of the controller is (R34, R254, R281, R285; log 17, DEDUCED). -/
def endOfStep (s : State) : State :=
  let uir := Config.freeMicroInstr s.draws
  let path := freePath s.draws
  { s.drew 5 with
    micro :=
      if s.halted then
        { uar := Config.freeMicroAddr s.draws, uir := uir, path := path,
          cp1 := Config.freeBit s.draws, cp2 := Config.freeBit (s.draws + 1) }
      else { uar := 0, uir := uir, cp1 := true, cp2 := false, path := path } }

/-- A reset that arrives from outside (R280): PC, SP, IE, halted and the controller as R37 gives them,
memory as it is, R0~R7, the flags, IR and the data path unspecified (log 20). Configuration, environment and the
record of I/O accesses are no state of the CPU and stay. -/
def State.externalReset (s : State) : State :=
  { s.drew 18 with
    regs := Vector.ofFn fun k : Fin 8 => Config.freeWord (s.draws + k.val)
    pc := resetPc
    sp := resetSp
    psw := { cf := Config.freeBit (s.draws + 8), of := Config.freeBit (s.draws + 9),
             sf := Config.freeBit (s.draws + 10), zf := Config.freeBit (s.draws + 11) }
    ie := false
    halted := false
    ir := Config.freeWord (s.draws + 12)
    micro := { MicroState.reset with uir := Config.freeMicroInstr s.draws, path := freePath (s.draws + 13) } }

end Sys2Proof.Machine
end

