-- ==== Sys2Proof/Machine/Flags.lean ====
section
/-! DEFINITION. Results and flags of arithmetic, logic, shifts and rotates (spec 42_arith_logic.md
R150~R152, 43_shift_rotate.md R180~R187). Each answers the result and the state with PSW written. -/

namespace Sys2Proof.Machine

/-- A flag as a 16-bit number. -/
def bitWord (b : Bool) : Word := (BitVec.ofBool b).zeroExtend 16

/-- The 17-bit exact sum of R150. -/
def exactSum (a b : Word) (cin : Bool) : BitVec 17 :=
  a.zeroExtend 17 + b.zeroExtend 17 + (BitVec.ofBool cin).zeroExtend 17

/-- `AddFlags(a, b, cin)`, R150. -/
def addFlags (a b : Word) (cin : Bool) (s : State) : Word × State :=
  let t := exactSum a b cin
  let r : Word := t.extractLsb' 0 16
  (r, { s with psw :=
        { cf := t.getLsbD 16
          of := (a.getLsbD 15 == b.getLsbD 15) && (r.getLsbD 15 != a.getLsbD 15)
          sf := r.getLsbD 15
          zf := r == 0 } })

/-- `SubFlags(a, b, bin)`, R151: `a - b - bin`, CF is the borrow. -/
def subFlags (a b : Word) (bin : Bool) (s : State) : Word × State :=
  let r := a - b - bitWord bin
  (r, { s with psw :=
        { cf := decide (a.toNat < b.toNat + bin.toNat)
          of := (a.getLsbD 15 != b.getLsbD 15) && (r.getLsbD 15 != a.getLsbD 15)
          sf := r.getLsbD 15
          zf := r == 0 } })

/-- `LogicFlags(r)`, R152: OF and CF are free values, two draws (log 9). -/
def logicFlags (r : Word) (s : State) : Word × State :=
  (r, { s.drew 2 with psw :=
        { cf := (s.drew 1).bit, of := s.bit, sf := r.getLsbD 15, zf := r == 0 } })

/-- `ShiftFlags(c)`, R180: CF is the bit that leaves the word; SF, ZF and OF are free values, three
draws (log 9). -/
def shiftFlags (c : Bool) (r : Word) (s : State) : Word × State :=
  (r, { s.drew 3 with psw :=
        { cf := c, of := (s.drew 2).bit, sf := s.bit, zf := (s.drew 1).bit } })

/-- `{ v[15], v[15:1] }` (R181). -/
def sarWord (v : Word) : Word := BitVec.ofBool (v.getLsbD 15) ++ v.extractLsb' 1 15
/-- `{ v[14:0], 0 }` (R182). -/
def shlWord (v : Word) : Word := v.extractLsb' 0 15 ++ 0#1
/-- `{ 0, v[15:1] }` (R183). -/
def shrWord (v : Word) : Word := 0#1 ++ v.extractLsb' 1 15
/-- `{ v[14:0], v[15] }` (R184). -/
def rolWord (v : Word) : Word := v.extractLsb' 0 15 ++ BitVec.ofBool (v.getLsbD 15)
/-- `{ v[0], v[15:1] }` (R185). -/
def rorWord (v : Word) : Word := BitVec.ofBool (v.getLsbD 0) ++ v.extractLsb' 1 15
/-- `{ v[14:0], CF }` (R186). -/
def rclWord (v : Word) (cf : Bool) : Word := v.extractLsb' 0 15 ++ BitVec.ofBool cf
/-- `{ CF, v[15:1] }` (R187). -/
def rcrWord (v : Word) (cf : Bool) : Word := BitVec.ofBool cf ++ v.extractLsb' 1 15

end Sys2Proof.Machine
end

