-- ==== Sys2Proof/Machine/Operands.lean ====
section
/-! DEFINITION. Operands: the eight addressing modes, reading and writing a location, and the target of
a jump (spec 40_operands.md R112~R125, 44_jump.md R200). -/

namespace Sys2Proof.Machine

/-- What an operand resolves to, R113. -/
inductive Loc where
  /-- General register n. -/
  | reg (n : RegNum)
  /-- The memory word at the effective address. -/
  | mem (a : Word)
  /-- The immediate value (source operands only). -/
  | imm (v : Word)
deriving DecidableEq, Repr

/-- `Resolve(m, r)`, R114~R122: the location, with the mode's side effects made exactly once. In
relative mode PC is already past the displacement. -/
def resolve (o : Operand) (s : State) : Res (Loc × State) :=
  match o with
  | .reg n => .next (.reg n, s)
  | .ind n => .next (.mem (s.reg n), s)
  | .autoInc n => .next (.mem (s.reg n), s.setReg n (s.reg n + 1))
  | .imm => andThen (fetchWord s) fun p => .next (.imm p.1, p.2)
  | .direct => andThen (fetchWord s) fun p => .next (.mem p.1, p.2)
  | .indirect =>
    andThen (fetchWord s) fun p =>
    andThen (memRead p.1 p.2) fun q => .next (.mem q.1, q.2)
  | .indexed n => andThen (fetchWord s) fun p => .next (.mem (p.2.reg n + p.1), p.2)
  | .relative => andThen (fetchWord s) fun p => .next (.mem (p.2.pc + p.1), p.2)

/-- `ReadLoc`, R123. -/
def readLoc (l : Loc) (s : State) : Res (Word × State) :=
  match l with
  | .reg n => .next (s.reg n, s)
  | .mem a => memRead a s
  | .imm v => .next (v, s)

/-- `WriteLoc`, R124. An immediate location is never written: its encoding is refused (R96). -/
def writeLoc (l : Loc) (v : Word) (s : State) : Res State :=
  match l with
  | .reg n => .next (s.setReg n v)
  | .mem a => memWrite a v s
  | .imm _ => .refused .immediateDestination

/-- The source operand, resolved and read completely before anything of the destination (R112). -/
def readSource (o : Operand) (s : State) : Res (Word × State) :=
  andThen (resolve o s) fun p => readLoc p.1 p.2

/-- The destination operand, resolved once (R113). Immediate mode is refused before any constant is
fetched (R96, R110). -/
def resolveDst (o : Operand) (s : State) : Res (Loc × State) :=
  match o with
  | .imm => .refused .immediateDestination
  | .reg n => resolve (.reg n) s
  | .ind n => resolve (.ind n) s
  | .autoInc n => resolve (.autoInc n) s
  | .direct => resolve .direct s
  | .indirect => resolve .indirect s
  | .indexed n => resolve (.indexed n) s
  | .relative => resolve .relative s

/-- `Target(dloc)`, R200: the effective address, not the contents. -/
def target (l : Loc) : Res Word :=
  match l with
  | .mem a => .next a
  | .reg _ => .refused .jumpToRegisterOperand
  | .imm _ => .refused .immediateDestination

/-- The operand phases of format D (R110, R112). -/
def withOperands (src dst : Operand) (s : State) (k : Word → Loc → State → Res State) : Res State :=
  andThen (readSource src s) fun p =>
  andThen (resolveDst dst p.2) fun q => k p.1 q.1 q.2

/-- The operand phase of format S (R110). -/
def withDst (dst : Operand) (s : State) (k : Loc → State → Res State) : Res State :=
  andThen (resolveDst dst s) fun q => k q.1 q.2

/-- Read the destination, compute, write the same location once (R113, R124). -/
def updateLoc (l : Loc) (s : State) (f : Word → State → Word × State) : Res State :=
  andThen (readLoc l s) fun p => writeLoc l (f p.1 p.2).1 (f p.1 p.2).2

/-- Read the destination and keep only the flags of the computation (CMP, TEST: R157, R161). -/
def observeLoc (l : Loc) (s : State) (f : Word → State → Word × State) : Res State :=
  andThen (readLoc l s) fun p => .next (f p.1 p.2).2

end Sys2Proof.Machine
end

