-- ==== Sys2Proof/Machine/Arith.lean ====
section
/-! DEFINITION. Arithmetic and logic (spec 42_arith_logic.md R153~R164). The destination is the first
argument of every flag function: destination minus source (D12). -/

namespace Sys2Proof.Machine

/-- ADD, R153. -/
def execAdd (src dst : Operand) (s : State) : Res State :=
  withOperands src dst s fun sval l s => updateLoc l s fun dval s => addFlags dval sval false s

/-- ADDC, R154: CF as it was before this instruction. -/
def execAddc (src dst : Operand) (s : State) : Res State :=
  withOperands src dst s fun sval l s => updateLoc l s fun dval s => addFlags dval sval s.psw.cf s

/-- SUB, R155. -/
def execSub (src dst : Operand) (s : State) : Res State :=
  withOperands src dst s fun sval l s => updateLoc l s fun dval s => subFlags dval sval false s

/-- SUBB, R156: CF as it was before this instruction. -/
def execSubb (src dst : Operand) (s : State) : Res State :=
  withOperands src dst s fun sval l s => updateLoc l s fun dval s => subFlags dval sval s.psw.cf s

/-- CMP, R157: the flags of SUB, nothing stored. -/
def execCmp (src dst : Operand) (s : State) : Res State :=
  withOperands src dst s fun sval l s => observeLoc l s fun dval s => subFlags dval sval false s

/-- AND, R158. -/
def execAnd (src dst : Operand) (s : State) : Res State :=
  withOperands src dst s fun sval l s => updateLoc l s fun dval s => logicFlags (dval &&& sval) s

/-- OR, R159. -/
def execOr (src dst : Operand) (s : State) : Res State :=
  withOperands src dst s fun sval l s => updateLoc l s fun dval s => logicFlags (dval ||| sval) s

/-- XOR, R160. -/
def execXor (src dst : Operand) (s : State) : Res State :=
  withOperands src dst s fun sval l s => updateLoc l s fun dval s => logicFlags (dval ^^^ sval) s

/-- TEST, R161: the flags of AND, nothing stored. -/
def execTest (src dst : Operand) (s : State) : Res State :=
  withOperands src dst s fun sval l s => observeLoc l s fun dval s => logicFlags (dval &&& sval) s

/-- INC, R162: CF is written too. -/
def execInc (dst : Operand) (s : State) : Res State :=
  withDst dst s fun l s => updateLoc l s fun dval s => addFlags dval 1 false s

/-- DEC, R163: CF is written too. -/
def execDec (dst : Operand) (s : State) : Res State :=
  withDst dst s fun l s => updateLoc l s fun dval s => subFlags dval 1 false s

/-- NOT, R164. -/
def execNot (dst : Operand) (s : State) : Res State :=
  withDst dst s fun l s => updateLoc l s fun dval s => logicFlags (~~~dval) s

end Sys2Proof.Machine
end

