-- ==== Sys2Proof/Machine/Call.lean ====
section
/-! DEFINITION. Subroutine call and return (spec 45_call_return.md R220, R221). -/

namespace Sys2Proof.Machine

/-- CALL, R220: the target is computed before SP moves; the word pushed is the address after the
whole CALL instruction. -/
def execCall (dst : Operand) (s : State) : Res State :=
  withDst dst s fun l s => andThen (target l) fun t =>
    andThen (push s.pc s) fun s => .next { s with pc := t }

/-- RET, R221. -/
def execRet (s : State) : Res State :=
  andThen (pop s) fun p => .next { p.2 with pc := p.1 }

end Sys2Proof.Machine
end

