-- ==== Sys2Proof/Machine/Control.lean ====
section
/-! DEFINITION. Machine control and interrupt instructions (spec 46_control_interrupt.md R230~R234). -/

namespace Sys2Proof.Machine

/-- HALT, R230. -/
def execHalt (s : State) : Res State := .next { s with halted := true }

/-- NOP, R231. -/
def execNop (s : State) : Res State := .next s

/-- RETI, R232. -/
def execReti (s : State) : Res State := returnFromInterrupt s

/-- EI, R233: immediate, the check that ends this step sees IE = 1. -/
def execEi (s : State) : Res State := .next { s with ie := true }

/-- DI, R234: immediate, the check that ends this step sees IE = 0. -/
def execDi (s : State) : Res State := .next { s with ie := false }

end Sys2Proof.Machine
end

