-- ==== Sys2Proof/Machine/Jump.lean ====
section
/-! DEFINITION. Jumps (spec 44_jump.md R200~R211): the operand is resolved first and unconditionally,
then the condition is tested (R202). -/

namespace Sys2Proof.Machine

/-- A jump taken exactly when `cond` holds of PSW (R202). A register operand is refused whether or
not it holds. -/
def jumpWhen (cond : Psw → Bool) (dst : Operand) (s : State) : Res State :=
  withDst dst s fun l s => andThen (target l) fun t =>
    .next (if cond s.psw then { s with pc := t } else s)

/-- JMP, R201. -/
def execJmp (dst : Operand) (s : State) : Res State := jumpWhen (fun _ => true) dst s

/-- JC, R203. -/
def execJc (dst : Operand) (s : State) : Res State := jumpWhen (fun p => p.cf) dst s

/-- JNC, R204. -/
def execJnc (dst : Operand) (s : State) : Res State := jumpWhen (fun p => !p.cf) dst s

/-- JO, R205. -/
def execJo (dst : Operand) (s : State) : Res State := jumpWhen (fun p => p.of) dst s

/-- JNO, R206. -/
def execJno (dst : Operand) (s : State) : Res State := jumpWhen (fun p => !p.of) dst s

/-- JZ, R207. -/
def execJz (dst : Operand) (s : State) : Res State := jumpWhen (fun p => p.zf) dst s

/-- JNZ, R208. -/
def execJnz (dst : Operand) (s : State) : Res State := jumpWhen (fun p => !p.zf) dst s

/-- JS, R209. -/
def execJs (dst : Operand) (s : State) : Res State := jumpWhen (fun p => p.sf) dst s

/-- JNS, R210. -/
def execJns (dst : Operand) (s : State) : Res State := jumpWhen (fun p => !p.sf) dst s

end Sys2Proof.Machine
end

