-- ==== Sys2Proof/Machine/Shift.lean ====
section
/-! DEFINITION. Shifts and rotates by one bit position (spec 43_shift_rotate.md R180~R188). -/

namespace Sys2Proof.Machine

/-- SAR, R181. -/
def execSar (dst : Operand) (s : State) : Res State :=
  withDst dst s fun l s => updateLoc l s fun v s => shiftFlags (v.getLsbD 0) (sarWord v) s

/-- SHL, R182. -/
def execShl (dst : Operand) (s : State) : Res State :=
  withDst dst s fun l s => updateLoc l s fun v s => shiftFlags (v.getLsbD 15) (shlWord v) s

/-- SHR, R183. -/
def execShr (dst : Operand) (s : State) : Res State :=
  withDst dst s fun l s => updateLoc l s fun v s => shiftFlags (v.getLsbD 0) (shrWord v) s

/-- ROL, R184. -/
def execRol (dst : Operand) (s : State) : Res State :=
  withDst dst s fun l s => updateLoc l s fun v s => shiftFlags (v.getLsbD 15) (rolWord v) s

/-- ROR, R185. -/
def execRor (dst : Operand) (s : State) : Res State :=
  withDst dst s fun l s => updateLoc l s fun v s => shiftFlags (v.getLsbD 0) (rorWord v) s

/-- RCL, R186: the old CF enters bit 0. -/
def execRcl (dst : Operand) (s : State) : Res State :=
  withDst dst s fun l s => updateLoc l s fun v s => shiftFlags (v.getLsbD 15) (rclWord v s.psw.cf) s

/-- RCR, R187: the old CF enters bit 15. -/
def execRcr (dst : Operand) (s : State) : Res State :=
  withDst dst s fun l s => updateLoc l s fun v s => shiftFlags (v.getLsbD 0) (rcrWord v s.psw.cf) s

end Sys2Proof.Machine
end

