-- ==== Sys2Proof/Machine/Transfer.lean ====
section
/-! DEFINITION. Data transfer: MOV, PUSH, POP (spec 41_data_transfer.md R141~R143). -/

namespace Sys2Proof.Machine

/-- MOV, R141: the destination is written and not read. -/
def execMov (src dst : Operand) (s : State) : Res State :=
  withOperands src dst s fun sval l s => writeLoc l sval s

/-- PUSH, R142: the operand is read before SP moves. -/
def execPush (dst : Operand) (s : State) : Res State :=
  withDst dst s fun l s => andThen (readLoc l s) fun p => push p.1 p.2

/-- POP, R143: the destination is resolved, then the stack is read, then the destination is written. -/
def execPop (dst : Operand) (s : State) : Res State :=
  withDst dst s fun l s => andThen (pop s) fun p => writeLoc l p.1 p.2

end Sys2Proof.Machine
end

