-- ==== Sys2Proof/Machine/Dispatch.lean ====
section
/-! DEFINITION. What each instruction does, by constructor (spec 30_encoding.md R92~R94). -/

namespace Sys2Proof.Machine

def exec (i : Instr) (s : State) : Host.Outcome State Fault Refusal :=
  match i with
  | .mov src dst => Sys2Proof.Machine.execMov src dst s
  | .add src dst => Sys2Proof.Machine.execAdd src dst s
  | .addc src dst => Sys2Proof.Machine.execAddc src dst s
  | .sub src dst => Sys2Proof.Machine.execSub src dst s
  | .subb src dst => Sys2Proof.Machine.execSubb src dst s
  | .and src dst => Sys2Proof.Machine.execAnd src dst s
  | .or src dst => Sys2Proof.Machine.execOr src dst s
  | .xor src dst => Sys2Proof.Machine.execXor src dst s
  | .cmp src dst => Sys2Proof.Machine.execCmp src dst s
  | .test src dst => Sys2Proof.Machine.execTest src dst s
  | .sar dst => Sys2Proof.Machine.execSar dst s
  | .shl dst => Sys2Proof.Machine.execShl dst s
  | .shr dst => Sys2Proof.Machine.execShr dst s
  | .rol dst => Sys2Proof.Machine.execRol dst s
  | .ror dst => Sys2Proof.Machine.execRor dst s
  | .rcl dst => Sys2Proof.Machine.execRcl dst s
  | .rcr dst => Sys2Proof.Machine.execRcr dst s
  | .jc dst => Sys2Proof.Machine.execJc dst s
  | .jnc dst => Sys2Proof.Machine.execJnc dst s
  | .jo dst => Sys2Proof.Machine.execJo dst s
  | .jno dst => Sys2Proof.Machine.execJno dst s
  | .jz dst => Sys2Proof.Machine.execJz dst s
  | .jnz dst => Sys2Proof.Machine.execJnz dst s
  | .js dst => Sys2Proof.Machine.execJs dst s
  | .jns dst => Sys2Proof.Machine.execJns dst s
  | .jmp dst => Sys2Proof.Machine.execJmp dst s
  | .inc dst => Sys2Proof.Machine.execInc dst s
  | .dec dst => Sys2Proof.Machine.execDec dst s
  | .not dst => Sys2Proof.Machine.execNot dst s
  | .push dst => Sys2Proof.Machine.execPush dst s
  | .pop dst => Sys2Proof.Machine.execPop dst s
  | .call dst => Sys2Proof.Machine.execCall dst s
  | .halt => Sys2Proof.Machine.execHalt s
  | .nop => Sys2Proof.Machine.execNop s
  | .ret => Sys2Proof.Machine.execRet s
  | .reti => Sys2Proof.Machine.execReti s
  | .ei => Sys2Proof.Machine.execEi s
  | .di => Sys2Proof.Machine.execDi s

end Sys2Proof.Machine
end

