-- ==== Sys2Proof/Machine/Step.lean ====
section
/-! DEFINITION. One step of the CPU (spec 40_operands.md R110), and the placing of an instruction where
the step fetches it. -/

namespace Sys2Proof.Machine

/-- `Step()`, R110: fetch and decode, execute, then the interrupt check. A halted machine takes no step
(R230). -/
def step (s : State) : Host.Outcome State Fault Refusal :=
  if s.halted then .fault .halted
  else
    andThen (fetchInstr s) fun p =>
    andThen (exec p.1 p.2) fun s₁ =>
    andThen (interruptCheck s₁) fun s₂ =>
    .next (endOfStep s₂)

/-- The state with an instruction (numbered as the opcode table numbers its bits, zero above `nbits`)
stored at PC, the machine running (log 19). -/
def State.withFetchWord (s : State) (nbits w : Nat) : State :=
  { s with mem := loadWords s.mem s.pc (tableWords nbits w), halted := false }

end Sys2Proof.Machine
end

