-- ==== Sys2Proof/Machine/Micro.lean ====
section
/-! DEFINITION. The documented tables of the microprogram controller (spec 70_reset_and_hazards.md
R284~R288): microinstruction fields, micro-address formation, one allocation of micro-addresses and
the two clock phases. Informative in the spec: no rule of the instruction level reads them, and
`step` does not either. The control-store contents are not in any source (R4) and are an argument. -/

namespace Sys2Proof.Machine

/-! Microinstruction fields, R286. A code the table does not list gives none. -/

/-- F0, XXoe: what drives the internal bus. -/
inductive BusSource where
  | nop | pcOe | drOe | grsOe | ryOe | arOe | rfOe
deriving DecidableEq, Repr

/-- The codes of F0. -/
def busSource (f : BitVec 3) : Option BusSource :=
  match f.toNat with
  | 0 => some .nop
  | 1 => some .pcOe
  | 2 => some .drOe
  | 3 => some .grsOe
  | 4 => some .ryOe
  | 5 => some .arOe
  | 6 => some .rfOe
  | _ => none

/-- F1, XXce: what loads from the bus. -/
inductive BusLoad where
  | nop | pcCe | irCe | grsCe | ryCe | rxCe | rfCe
deriving DecidableEq, Repr

/-- The codes of F1. -/
def busLoad (f : BitVec 3) : Option BusLoad :=
  match f.toNat with
  | 0 => some .nop
  | 1 => some .pcCe
  | 2 => some .irCe
  | 3 => some .grsCe
  | 4 => some .ryCe
  | 5 => some .rxCe
  | 6 => some .rfCe
  | _ => none

/-- F2, the ALU operation. -/
inductive AluOp where
  | mov | add | sub | and | or | xor | sr | sl | not | inc | dec | addc | subb
deriving DecidableEq, Repr

/-- The codes of F2, 0 to CH. -/
def aluOp (f : BitVec 4) : Option AluOp :=
  match f.toNat with
  | 0x0 => some .mov
  | 0x1 => some .add
  | 0x2 => some .sub
  | 0x3 => some .and
  | 0x4 => some .or
  | 0x5 => some .xor
  | 0x6 => some .sr
  | 0x7 => some .sl
  | 0x8 => some .not
  | 0x9 => some .inc
  | 0xA => some .dec
  | 0xB => some .addc
  | 0xC => some .subb
  | _ => none

/-- F3: whether PSW is loaded (1 PSWce); other codes are not listed. -/
def pswLoad (f : BitVec 3) : Option Bool :=
  match f.toNat with
  | 0 => some false
  | 1 => some true
  | _ => none

/-- F4, S/D: 0 DST, 1 SRC, which register-number field of IR addresses the GRS. -/
def grsAddress (f : BitVec 1) (ir : Word) : RegNum :=
  regOfField (if f = 1 then fieldRs ir else fieldRd ir)

/-- F5, SB; the placing of the last two in this field is inferred by the spec (R286). -/
inductive SbCommand where
  | nop | arCe | drCes | drCe
deriving DecidableEq, Repr

/-- The codes of F5. -/
def sbCommand (f : BitVec 2) : SbCommand :=
  match f.toNat with
  | 0 => .nop
  | 1 => .arCe
  | 2 => .drCes
  | _ => .drCe

/-- F6: whether PC is incremented (1 PCinc). -/
def pcIncrement (f : BitVec 1) : Bool := f == 1

/-- F7, Mem. -/
inductive MemCommand where
  | nop | rd | wr
deriving DecidableEq, Repr

/-- The codes of F7; other codes are not listed. -/
def memCommand (f : BitVec 3) : Option MemCommand :=
  match f.toNat with
  | 0 => some .nop
  | 1 => some .rd
  | 2 => some .wr
  | _ => none

/-! Micro-address formation, R287. -/

/-- A jump condition as the opcode bits select it: `sop[2:1]` the flag (00 CF, 01 OF, 10 ZF, 11 SF),
taken iff the flag is not `sop[0]` (R97, R202). `ir[8:7]` and `ir[6]` are these bits. It is the
condition of a conditional jump only; see `conditionTest`. -/
def opcodeCondition (ir : Word) (p : Psw) : Bool :=
  let flag := match (ir.extractLsb' 7 2).toNat with
    | 0 => p.cf
    | 1 => p.of
    | 2 => p.zf
    | _ => p.sf
  flag != ir.getLsbD 6

/-- ƒ(OP, PSW) of BM = 3 (R287): the condition of the conditional jump in IR (`sop` = 001ffn, R97). For
any other word the spec defines no condition: a free value of the draw `n`, DESIGN CHOICE (log 21). -/
def conditionTest (ir : Word) (p : Psw) (n : Nat) : Bool :=
  if ir.extractLsb' 9 7 = 0b0000001 then opcodeCondition ir p else Config.freeBit n

/-- The entry of an instruction's own microprogram in the allocation of R288: 070H + `op` in format D,
060H + `zop[3:0]` in format Z, and in format S one of 041H~04FH, which one is lost: a free value of
the opcode, DESIGN CHOICE (log 21). -/
def opcodeEntry (ir : Word) : BitVec 9 :=
  match wordFormat ir with
  | .double => 0x070 + (ir.extractLsb' 12 4).zeroExtend 9
  | .single => 0x041 + BitVec.ofNat 9 (Config.singleEntry (ir.extractLsb' 6 6)).val
  | .zero => 0x060 + (ir.extractLsb' 0 4).zeroExtend 9

/-- What the condition tests of the controller look at. -/
structure MicroTests where
  ir : Word
  psw : Psw
  intr : Bool
  ie : Bool
  /-- The addressing mode M that BM = 5 tests. -/
  mode : BitVec 3
deriving DecidableEq, Repr

/-- NA with the bits of `mask` replaced by those of `test`. -/
def replaceBits (na mask test : BitVec 9) : BitVec 9 := (na &&& ~~~mask) ||| (test &&& mask)

/-- µAR as BM and NA form it (R287). What the table lost or leaves open is a free value of the draw `n`:
µAR0 of BM = 2 for a double-operand instruction, and of BM = 3 for a word that is no conditional
jump. BM = 4 branches on the opcode to the entries of R288. BM = 6 is reserved (log 21). -/
def nextMicroAddr (m : MicroInstr) (t : MicroTests) (n : Nat) : Option (BitVec 9) :=
  match m.bm.toNat with
  | 0 => some m.na
  | 1 => some (replaceBits m.na 0x080 ((BitVec.ofBool (t.intr && t.ie)).zeroExtend 9 <<< 7))
  | 2 => some <| match wordFormat t.ir with
    | .double => replaceBits m.na 0x003 ((BitVec.ofBool (Config.freeBit n)).zeroExtend 9)
    | .single => replaceBits m.na 0x003 0x002
    | .zero => replaceBits m.na 0x003 0x003
  | 3 => some (replaceBits m.na 0x001 ((BitVec.ofBool (conditionTest t.ir t.psw n)).zeroExtend 9))
  | 4 => some (opcodeEntry t.ir)
  | 5 => some (replaceBits m.na 0x007 (t.mode.zeroExtend 9))
  | 6 => none
  | _ => some (replaceBits m.na 0x001
      ((BitVec.ofBool (t.ir.getLsbD 5 || t.ir.getLsbD 4 || t.ir.getLsbD 3)).zeroExtend 9))

/-! One allocation of micro-addresses, R288. -/

/-- The microprograms of the allocation table. -/
inductive MicroProgram where
  | instructionFetch | sourceEntries | destinationEntry | executeEntry | reserved | storeResult
  | sourceFetch | destinationFetch | singleEntries | zeroEntries | doubleEntries | interruptEntry
deriving DecidableEq, Repr

/-- The table: each microprogram with its first and last micro-address. -/
def microAllocation : List (MicroProgram × Nat × Nat) :=
  [(.instructionFetch, 0x000, 0x003), (.sourceEntries, 0x004, 0x005), (.destinationEntry, 0x006, 0x006),
   (.executeEntry, 0x007, 0x007), (.reserved, 0x008, 0x00B), (.storeResult, 0x00C, 0x00E),
   (.sourceFetch, 0x00F, 0x027), (.destinationFetch, 0x028, 0x03F), (.singleEntries, 0x041, 0x04F),
   (.zeroEntries, 0x060, 0x06F), (.doubleEntries, 0x071, 0x07F), (.interruptEntry, 0x080, 0x080)]

/-- The microprogram that the allocation puts at a micro-address. -/
def microProgramAt (a : BitVec 9) : Option MicroProgram :=
  (microAllocation.find? fun e => e.2.1 ≤ a.toNat && a.toNat ≤ e.2.2).map Prod.fst

/-! The clock, R284, R285. -/

/-- The system clock, 10 MHz. -/
def systemClockHz : Nat := 10000000
/-- Each microinstruction takes 2 system-clock periods. -/
def clocksPerMicro : Nat := 2
/-- The micro-cycle in nanoseconds: 0.2 µs. -/
def microCycleNs : Nat := clocksPerMicro * 1000000000 / systemClockHz

/-- CP2 rises: the control-store output at µAR is loaded into µIR. That CP1 is low from here on is a
DESIGN CHOICE (log 35): the spec gives no duty cycle, only that CP2 comes first and CP1 one clock later. -/
def cp2Edge (store : BitVec 9 → MicroInstr) (m : MicroState) : MicroState :=
  { m with uir := store m.uar, cp1 := false, cp2 := true }

/-- CP1 rises: the next micro-address is loaded into µAR. The results of the microinstruction are saved
at the same edge, below the granularity of the model (R285). That CP2 is low from here on is a DESIGN
CHOICE (log 35). -/
def cp1Edge (next : BitVec 9) (m : MicroState) : MicroState :=
  { m with uar := next, cp1 := true, cp2 := false }

/-- One micro-cycle: CP2 first, then CP1. None where the branch mode is reserved. -/
def microCycle (store : BitVec 9 → MicroInstr) (t : MicroTests) (n : Nat) (m : MicroState) :
    Option MicroState :=
  (nextMicroAddr (store m.uar) t n).map fun a => cp1Edge a (cp2Edge store m)

end Sys2Proof.Machine
end

