-- ==== Sys2Proof/Safety.lean ====
section
/-! DEFINITION. What counts as a safe state, and the words statements about JUC-3 are made of: frames,
the operand phase of an instruction, and flags by exact arithmetic. -/

namespace Sys2Proof.Machine

/-! The invariant. -/

/-- What every step keeps: the parameters are in their bounds (spec R5); memory is canonical and lists
only implemented RAM (R60); without the peripheral-interface module IE is 0 forever (R31) and no I/O
access was made (R54); without the instruction-enhancement module SP keeps its reset value (R29);
and a machine that is not halted is about to fetch, its micro-cycle over (R281, R285; log 17). -/
structure State.Inv (s : State) : Prop where
  cfg : s.cfg.wf
  mem : Memory.wf s.mem
  memInRam : ∀ e ∈ s.mem, e.1 < s.cfg.ramWords
  ieNeedsInt : s.cfg.hasInt = false → s.ie = false
  ioNeedsInt : s.cfg.hasInt = false → s.ioTrace = []
  spNeedsExt : s.cfg.hasExt = false → s.sp = resetSp
  fetchReady : s.halted = false → s.micro.uar = 0 ∧ s.micro.cp1 = true ∧ s.micro.cp2 = false

/-- Every address can be read and written: RAM below the I/O region, and the I/O region (R53, R54). -/
abbrev State.FullyBacked (s : State) : Prop := s.cfg.ramWords = 0xFF00 ∧ s.cfg.hasInt = true

/-! Locations. -/

/-- The location can be read and written: a register, or an accessible address (R60, R123, R124). -/
def Loc.Usable (c : Config) : Loc → Prop
  | .reg _ => True
  | .mem a => accessible c a = true
  | .imm _ => False

/-- The value a location holds (R123). -/
def State.valueAt (s : State) : Loc → Word
  | .reg n => s.reg n
  | .mem a => s.peek a
  | .imm v => v

/-- The state after the location has been read: only a memory access leaves a trace. -/
def State.afterLoc (s : State) : Loc → State
  | .reg _ => s
  | .mem a => s.afterRead a
  | .imm _ => s

/-- The state after the location has been written (R124). -/
def State.put (s : State) (l : Loc) (v : Word) : State :=
  match l with
  | .reg n => s.setReg n v
  | .mem a => s.store a v
  | .imm _ => s

/-- The operand phases of a double-operand instruction succeed: the source's value is `v`, the
destination's location is `l`, and `t` is the state after them (R110, R112). -/
def OperandsReady (src dst : Operand) (s : State) (v : Word) (l : Loc) (t : State) : Prop :=
  ∃ s₁, readSource src s = .next (v, s₁) ∧ resolveDst dst s₁ = .next (l, t) ∧ l.Usable s.cfg

/-- The operand phase of a single-operand instruction succeeds (R110). -/
def OperandReady (dst : Operand) (s : State) (l : Loc) (t : State) : Prop :=
  resolveDst dst s = .next (l, t) ∧ l.Usable s.cfg

/-! Frames. -/

/-- The register is unchanged unless it is one of those named. -/
def RegsSameBut (s t : State) (may : RegNum → Prop) : Prop := ∀ n, ¬ may n → t.reg n = s.reg n

/-- Every word of memory reads as before except the one at the location, and no device saw a write
except to the location. -/
def StoredOnlyAt (s t : State) (l : Loc) : Prop :=
  (∀ k : Nat, (∀ a, l = .mem a → k ≠ a.toNat) → Memory.read t.mem k = Memory.read s.mem k) ∧
  ∃ new, t.ioTrace = new ++ s.ioTrace ∧ ∀ a v, IoEvent.write a v ∈ new → l = .mem a

/-- No word of memory changed and no device saw a write. -/
def StoredNowhere (s t : State) : Prop :=
  (∀ k : Nat, Memory.read t.mem k = Memory.read s.mem k) ∧
  ∃ new, t.ioTrace = new ++ s.ioTrace ∧ ∀ a v, IoEvent.write a v ∉ new

/-- IE, halted, IR, the controller, the configuration and the environment's inputs are unchanged. -/
def ControlSame (s t : State) : Prop :=
  t.ie = s.ie ∧ t.halted = s.halted ∧ t.ir = s.ir ∧ t.micro = s.micro ∧ t.cfg = s.cfg ∧
    t.intInputs = s.intInputs

/-! Flags by exact arithmetic, apart from the formulas the machine computes them with. -/

/-- The sum as a number, narrowed. -/
def sumWord (a b : Word) (c : Bool) : Word := BitVec.ofNat 16 (a.toNat + b.toNat + c.toNat)

/-- The flags of a sum: CF the unsigned sum does not fit, OF the signed sum does not fit (R150). -/
def sumPsw (a b : Word) (c : Bool) : Psw :=
  { cf := decide (65536 ≤ a.toNat + b.toNat + c.toNat)
    of := decide (a.toInt + b.toInt + c.toNat < -32768 ∨ 32767 < a.toInt + b.toInt + c.toNat)
    sf := decide ((sumWord a b c).toInt < 0)
    zf := decide ((sumWord a b c).toNat = 0) }

/-- The difference as an integer, narrowed. -/
def diffWord (a b : Word) (c : Bool) : Word := BitVec.ofInt 16 ((a.toNat : Int) - b.toNat - c.toNat)

/-- The flags of a difference: CF the unsigned difference is negative, OF the signed difference does
not fit (R151). -/
def diffPsw (a b : Word) (c : Bool) : Psw :=
  { cf := decide ((a.toNat : Int) - b.toNat - c.toNat < 0)
    of := decide (a.toInt - b.toInt - c.toNat < -32768 ∨ 32767 < a.toInt - b.toInt - c.toNat)
    sf := decide ((diffWord a b c).toInt < 0)
    zf := decide ((diffWord a b c).toNat = 0) }

/-- SF and ZF from a result, OF and CF whatever they are (R152). -/
def resultPsw (r : Word) (cf of : Bool) : Psw :=
  { cf := cf, of := of, sf := decide (r.toInt < 0), zf := decide (r.toNat = 0) }

/-- A shift or rotate instruction with its result (from the operand and the old CF) and the bit that
leaves the word (R181~R187), by arithmetic and library rotations. -/
structure ShiftRow where
  op : Operand → Instr
  result : Word → Bool → Word
  out : Word → Bool

/-- The seven shifts and rotates. -/
def shiftTable : List ShiftRow :=
  [⟨.sar, fun v _ => BitVec.ofInt 16 (v.toInt / 2), fun v => decide (v.toNat % 2 = 1)⟩,
   ⟨.shl, fun v _ => BitVec.ofNat 16 (2 * v.toNat), fun v => decide (32768 ≤ v.toNat)⟩,
   ⟨.shr, fun v _ => BitVec.ofNat 16 (v.toNat / 2), fun v => decide (v.toNat % 2 = 1)⟩,
   ⟨.rol, fun v _ => v.rotateLeft 1, fun v => decide (32768 ≤ v.toNat)⟩,
   ⟨.ror, fun v _ => v.rotateRight 1, fun v => decide (v.toNat % 2 = 1)⟩,
   ⟨.rcl, fun v c => BitVec.ofNat 16 (2 * v.toNat + c.toNat), fun v => decide (32768 ≤ v.toNat)⟩,
   ⟨.rcr, fun v c => BitVec.ofNat 16 (v.toNat / 2 + 32768 * c.toNat), fun v => decide (v.toNat % 2 = 1)⟩]

/-- The nine jumps with the condition each tests (R201, R203~R210). -/
def jumpTable : List ((Operand → Instr) × (Psw → Prop)) :=
  [(.jmp, fun _ => True), (.jc, fun p => p.cf = true), (.jnc, fun p => p.cf = false),
   (.jo, fun p => p.of = true), (.jno, fun p => p.of = false), (.jz, fun p => p.zf = true),
   (.jnz, fun p => p.zf = false), (.js, fun p => p.sf = true), (.jns, fun p => p.sf = false)]

/-- Executing an instruction over and over. -/
def execTimes : Nat → Instr → State → Res State
  | 0, _, s => .next s
  | k + 1, i, s => andThen (exec i s) (execTimes k i)

/-- The two PSWs agree on the flags the instruction reads (R28). -/
def ReadsAlike (i : Instr) (p q : Psw) : Prop :=
  match i with
  | .addc _ _ | .subb _ _ | .rcl _ | .rcr _ | .jc _ | .jnc _ => p.cf = q.cf
  | .jo _ | .jno _ => p.of = q.of
  | .jz _ | .jnz _ => p.zf = q.zf
  | .js _ | .jns _ => p.sf = q.sf
  | .mov _ _ | .add _ _ | .sub _ _ | .cmp _ _ | .and _ _ | .or _ _ | .xor _ _ | .test _ _ => True
  | .sar _ | .shl _ | .shr _ | .rol _ | .ror _ | .inc _ | .dec _ | .not _ => True
  | .jmp _ | .push _ | .pop _ | .call _ | .halt | .nop | .ret | .reti | .ei | .di => True

/-- PUSH, POP, CALL, RET, RETI: the instructions that use SP (R30). -/
def usesSp (i : Instr) : Bool :=
  match i with
  | .push _ | .pop _ | .call _ | .ret | .reti => true
  | .mov _ _ | .add _ _ | .addc _ _ | .sub _ _ | .subb _ _ => false
  | .cmp _ _ | .and _ _ | .or _ _ | .xor _ _ | .test _ _ => false
  | .sar _ | .shl _ | .shr _ | .rol _ | .ror _ | .rcl _ | .rcr _ | .inc _ | .dec _ | .not _ => false
  | .jc _ | .jnc _ | .jo _ | .jno _ | .jz _ | .jnz _ | .js _ | .jns _ | .jmp _ => false
  | .halt | .nop | .ei | .di => false

/-- The word with the register fields of register-less modes set to 000, as an assembler emits it
(R91, R101). -/
def canonicalWord (w : Word) : Word :=
  let noReg (m : BitVec 3) : Bool := m == 3 || m == 4 || m == 5 || m == 7
  let src : Word := if wordFormat w = .double && noReg (fieldMs w) then 0x01C0 else 0
  let dst : Word := if wordFormat w != .zero && noReg (fieldMd w) then 0x0007 else 0
  w &&& ~~~(src ||| dst)

end Sys2Proof.Machine
end

