-- ==== Sys2Proof/Certificates/Slice0/Obligations.lean ====
section
/-! DEFINITION. The statements about JUC-3 for the provers. Each docstring names the part of the spec it
formalises; where that part is a decision or general knowledge of the spec, or a choice of this
model, it says so and names the decision (D<n>) or the log entry. -/

open Sys2Proof Sys2Proof.Machine

/-! ## Encoding -/

/-- Words written out from the opcode map, R92~R94, and the mode table, R87: at least one per family. -/
def Obligations.TabulatedWordsDecode : Prop :=
  decodeWord Config.full 0b0001_011_000_000_001 = .ok (.mov .imm (.reg 1)) ∧
  decodeWord Config.full 0b0010_100_000_000_000 = .ok (.add .direct (.reg 0)) ∧
  decodeWord Config.full 0b1001_011_000_010_010 = .ok (.cmp .imm (.autoInc 2)) ∧
  decodeWord Config.full 0b0000_010001_100_000 = .ok (.inc .direct) ∧
  decodeWord Config.full 0b0000_000110_000_010 = .ok (.rcl (.reg 2)) ∧
  decodeWord Config.full 0b0000_001101_111_000 = .ok (.jnz .relative) ∧
  decodeWord Config.full 0b0000_010000_001_001 = .ok (.jmp (.ind 1)) ∧
  decodeWord Config.full 0b0000_011001_001_011 = .ok (.pop (.ind 3)) ∧
  decodeWord Config.full 0b0000_011010_111_000 = .ok (.call .relative) ∧
  decodeWord Config.full 0b0001_110_011_000_100 = .ok (.mov (.indexed 3) (.reg 4)) ∧
  decodeWord Config.full 0b0001_101_000_000_000 = .ok (.mov .indirect (.reg 0)) ∧
  decodeWord Config.full 0b0000000000_000000 = .ok .halt ∧
  decodeWord Config.full 0b0000000000_000011 = .ok .reti

/-- R101, R90: the words of every well-formed whole instruction (each operand at every mode and register
number, each constant at every value) decode to it, with whatever follows left over. The order of
the two constants is decision D3. -/
def Obligations.DecodeOfEncodeIsIdentity : Prop :=
  ∀ (c : Config) (a : Code) (rest : List Word), a.WellFormed c = true →
    decode c (encode a ++ rest) = .ok (a, rest)

/-- The other direction, R91 (decision D7, log 14): what a word decodes to is well formed and encodes to
that word with the unused register fields set to 000, and those fields decide nothing. -/
def Obligations.DecodedWordEncodesToCanonicalWord : Prop :=
  ∀ (c : Config) (w : Word),
    decodeWord c w = decodeWord c (canonicalWord w) ∧
    ∀ i, decodeWord c w = .ok i → i.WellFormed c = true ∧ encodeWord i = canonicalWord w

/-- R95 (decision D9): on the full machine the words rejected as reserved are exactly the unassigned
ones, and a step that fetches one is refused with that reason. -/
def Obligations.ReservedEncodingsAreRefused : Prop :=
  (∀ w : Word, decodeWord Config.full w = .error .reservedEncoding ↔
    (0xB000 ≤ w.toNat ∨ (0x0500 ≤ w.toNat ∧ w.toNat ≤ 0x05FF) ∨
     (0x06C0 ≤ w.toNat ∧ w.toNat ≤ 0x0FFF) ∨ (0x0006 ≤ w.toNat ∧ w.toNat ≤ 0x003F))) ∧
  (∀ (s t : State) (w : Word), s.halted = false → fetchWord s = .next (w, t) →
    decodeWord s.cfg w = .error .reservedEncoding → step s = .refused .reservedEncoding)

/-- R96 (the treatment is decision D8): an assigned word of a present module whose destination mode is
011 is rejected whatever the opcode, before any constant is fetched, and nothing else is rejected so. -/
def Obligations.ImmediateDestinationIsRefused : Prop :=
  (∀ (c : Config) (w : Word), decodeWord c w = .error .immediateDestination ↔
    (∃ i, instrOfWord w = some i ∧ c.has i.module = true ∧ wordFormat w ≠ .zero ∧ fieldMd w = 0b011)) ∧
  (∀ (s t : State) (w : Word), s.halted = false → fetchWord s = .next (w, t) →
    decodeWord s.cfg w = .error .immediateDestination → step s = .refused .immediateDestination)

/-- R98 (the treatment is decision D38): without HAS_EXT the `*` instructions, without HAS_INT the `**`
instructions, are rejected like unassigned words; every other assigned word decodes as on the full
machine. -/
def Obligations.AbsentModulesRejectTheirInstructions : Prop :=
  ∀ (c : Config) (w : Word) (i : Instr), decodeWord Config.full w = .ok i →
    decodeWord c w =
      match i.module with
      | .basic => .ok i
      | .ext => if c.hasExt then .ok i else .error .reservedEncoding
      | .int => if c.hasInt then .ok i else .error .reservedEncoding

/-- R85: the class of a word is chosen by opcode expansion, its opcode is the field the class names,
and the micro-branch BM = 2 on the number of operands sets µAR1 and µAR0 accordingly. -/
def Obligations.FormatIsChosenByOpcodeExpansion : Prop :=
  ∀ w : Word,
    (wordFormat w = if w.extractLsb' 12 4 ≠ 0 then .double
                    else if w.extractLsb' 6 6 ≠ 0 then .single else .zero) ∧
    (∀ (c : Config) (i : Instr), decodeWord c w = .ok i → i.format = wordFormat w ∧
      (wordFormat w = .double →
        ∃ mk src dst, doubleOp (w.extractLsb' 12 4).toNat = some mk ∧ i = mk src dst) ∧
      (wordFormat w = .single → ∃ mk dst, singleOp (w.extractLsb' 6 6).toNat = some mk ∧ i = mk dst) ∧
      (wordFormat w = .zero → zeroOp (w.extractLsb' 0 6).toNat = some i)) ∧
    ∀ (m : MicroInstr) (t : MicroTests) (n : Nat), m.bm = 2 → t.ir = w →
      ∃ a, nextMicroAddr m t n = some a ∧
        (wordFormat w = .double → a.getLsbD 1 = false) ∧
        (wordFormat w = .single → a.getLsbD 1 = true ∧ a.getLsbD 0 = false) ∧
        (wordFormat w = .zero → a.getLsbD 1 = true ∧ a.getLsbD 0 = true)

/-- R89: the length of an instruction from its instruction word alone. -/
def Obligations.LengthFollowsFromTheWord : Prop :=
  ∀ (c : Config) (w : Word) (i : Instr), decodeWord c w = .ok i →
    let hasConst (m : BitVec 3) : Nat := if 0b011 ≤ m.toNat then 1 else 0
    (i.length = match i.format with
      | .double => 1 + hasConst (w.extractLsb' 9 3) + hasConst (w.extractLsb' 3 3)
      | .single => 1 + hasConst (w.extractLsb' 3 3)
      | .zero => 1) ∧
    1 ≤ i.length ∧ i.length ≤ 3

/-- R287: the next micro-address by branch mode: NA where the transfer is fixed, else NA with the low
(or seventh) bits replaced by the result of the test. Which flag and polarity each conditional jump
tests in BM = 3 is R202's general knowledge (G9, log 28), not R287's. What the table lost or leaves
open (log 21: µAR0 for a double-operand word in BM = 2, and for a word that is no conditional jump in
BM = 3) and BM = 6, reserved, are not stated. BM = 4's entries: OpcodeBranchFollowsTheAllocation. -/
def Obligations.MicroAddressFollowsTheBranchMode : Prop :=
  ∀ (m : MicroInstr) (t : MicroTests) (n : Nat),
    (m.bm = 0 → nextMicroAddr m t n = some m.na) ∧
    (m.bm = 1 → ∃ a, nextMicroAddr m t n = some a ∧ a.getLsbD 8 = m.na.getLsbD 8 ∧
      a.extractLsb' 0 7 = m.na.extractLsb' 0 7 ∧ a.getLsbD 7 = (t.intr && t.ie)) ∧
    (m.bm = 2 → ∃ a, nextMicroAddr m t n = some a ∧ a.extractLsb' 2 7 = m.na.extractLsb' 2 7 ∧
      (wordFormat t.ir = .double → a.getLsbD 1 = false) ∧
      (wordFormat t.ir = .single → a.getLsbD 1 = true ∧ a.getLsbD 0 = false) ∧
      (wordFormat t.ir = .zero → a.getLsbD 1 = true ∧ a.getLsbD 0 = true)) ∧
    (m.bm = 3 → ∃ a, nextMicroAddr m t n = some a ∧ a.extractLsb' 1 8 = m.na.extractLsb' 1 8 ∧
      ∀ e ∈ jumpTable.tail, ∀ d, instrOfWord t.ir = some (e.1 d) →
        (a.getLsbD 0 = true ↔ e.2 t.psw)) ∧
    (m.bm = 4 → ∃ a, nextMicroAddr m t n = some a) ∧
    (m.bm = 5 → ∃ a, nextMicroAddr m t n = some a ∧ a.extractLsb' 3 6 = m.na.extractLsb' 3 6 ∧
      a.extractLsb' 0 3 = t.mode) ∧
    (m.bm = 7 → ∃ a, nextMicroAddr m t n = some a ∧ a.extractLsb' 1 8 = m.na.extractLsb' 1 8 ∧
      (a.getLsbD 0 = false ↔ t.ir.extractLsb' 3 3 = 0b000))

/-- R288, R287 (its observations, derivations of the spec): the branch BM = 4 on the opcode goes to the
entry 070H + op in format D, 060H + zop[3:0] in format Z, and in format S to an entry in 041H~04FH; which
one is lost, and that it depends on the opcode alone is the model's (DESIGN CHOICE, log 21); from NA = 004H the branch BM = 2
on the number of operands goes to the source, destination or execute entry. -/
def Obligations.OpcodeBranchFollowsTheAllocation : Prop :=
  ∀ (m : MicroInstr) (t : MicroTests) (n : Nat),
    (m.bm = 4 → ∃ a, nextMicroAddr m t n = some a ∧
      (wordFormat t.ir = .double →
        a.toNat = 0x070 + (t.ir.extractLsb' 12 4).toNat ∧ microProgramAt a = some .doubleEntries) ∧
      (wordFormat t.ir = .single →
        microProgramAt a = some .singleEntries ∧ 0x041 ≤ a.toNat ∧ a.toNat ≤ 0x04F ∧
        ∀ (t' : MicroTests) (n' : Nat), wordFormat t'.ir = .single →
          t'.ir.extractLsb' 6 6 = t.ir.extractLsb' 6 6 → nextMicroAddr m t' n' = some a) ∧
      (wordFormat t.ir = .zero →
        a.toNat = 0x060 + (t.ir.extractLsb' 0 4).toNat ∧ microProgramAt a = some .zeroEntries)) ∧
    (m.bm = 2 → m.na = 0x004 → (nextMicroAddr m t n).bind microProgramAt =
      match wordFormat t.ir with
      | .double => some .sourceEntries
      | .single => some .destinationEntry
      | .zero => some .executeEntry)

/-! ## The step -/

/-- R110: a step of a running machine is the fetch of a word at PC, PC past it, the word in IR, the
decoded instruction's own execution, the interrupt check, and the end of the step. The end of the step
is no phase of R110 but the model's own (log 17, DEDUCED): it writes the hidden registers and counts
the free values it draws (log 18), and changes nothing else. -/
def Obligations.StepRunsTheDecodedInstruction : Prop :=
  (∀ u : State,
    endOfStep u = { u with micro := (endOfStep u).micro, draws := (endOfStep u).draws }) ∧
  ∀ (s : State) (i : Instr), s.halted = false → accessible s.cfg s.pc = true →
    decodeWord s.cfg (s.peek s.pc) = .ok i →
    step s =
      andThen (exec i { s.afterRead s.pc with pc := s.pc + 1, ir := s.peek s.pc }) fun t =>
      andThen (interruptCheck t) fun u => .next (endOfStep u)

/-- R230, R297 (decision D24): a step that fetches HALT, from RAM or from the I/O region, halts with PC
past it and takes no interrupt, whatever is requested; but for the trace of the fetch nothing else that
a program can see changes. A halted machine takes no further step: that this is the fault `halted` is
the model's rendering (log 10, DEDUCED). -/
def Obligations.HaltEndsTheRun : Prop :=
  (∀ s : State, s.halted = false → accessible s.cfg s.pc = true → s.peek s.pc = 0x0000 →
    ∃ t, step s = .next t ∧ t.halted = true ∧ t.pc = s.pc + 1 ∧ t.regs = s.regs ∧ t.sp = s.sp ∧
      t.psw = s.psw ∧ t.ie = s.ie ∧ t.mem = s.mem ∧ t.intInputs = s.intInputs ∧
      t.ioTrace = if isRam s.cfg s.pc then s.ioTrace else .read s.pc 0x0000 :: s.ioTrace) ∧
  (∀ s : State, s.halted = true → step s = .fault .halted)

/-- R23: fetching adds 1 and each constant word adds 1, so after an instruction that transfers no
control PC is the address of its first word plus its length. -/
def Obligations.PcAdvancesByTheLength : Prop :=
  ∀ (s t u : State) (i : Instr), fetchInstr s = .next (i, t) → exec i t = .next u →
    i.isTransfer = false → i ≠ .ret → i ≠ .reti → u.pc = s.pc + BitVec.ofNat 16 i.length

/-! ## Reset -/

/-- R37, R280: PC, SP, IE and halted after reset, µAR and the clock phases (R281); the reset event
leaves memory as it is. IE = 0 is decision D20; that the event leaves memory is decision D27. -/
def Obligations.ResetEstablishesTheSpecValues : Prop :=
  (State.reset.pc = 0x0030 ∧ State.reset.sp = 0x0030 ∧ State.reset.ie = false ∧
    State.reset.halted = false ∧ State.reset.micro.uar = 0 ∧ State.reset.micro.cp1 = true ∧
    State.reset.micro.cp2 = false) ∧
  ∀ s : State, s.externalReset.pc = 0x0030 ∧ s.externalReset.sp = 0x0030 ∧
    s.externalReset.ie = false ∧ s.externalReset.halted = false ∧ s.externalReset.mem = s.mem ∧
    s.externalReset.micro.uar = 0 ∧ s.externalReset.micro.cp1 = true ∧
    s.externalReset.micro.cp2 = false

/-! ## Registers, memory, operands -/

/-- R20: eight registers named by the 3-bit register fields, no aliases, none hard-wired: each reads as
last written, R0 too, and writing one leaves the others alone; and any of them may be a source, a
destination, an address or an index. -/
def Obligations.GeneralRegistersAreOrdinary : Prop :=
  (∀ r : BitVec 3, decodeOperand 0b000 r = .reg r.toFin ∧ decodeOperand 0b001 r = .ind r.toFin ∧
    decodeOperand 0b010 r = .autoInc r.toFin ∧ decodeOperand 0b110 r = .indexed r.toFin) ∧
  ∀ (s : State) (n m : RegNum) (v : Word),
    (s.setReg n v).reg m = (if m = n then v else s.reg m) ∧
    readSource (.reg n) s = .next (s.reg n, s) ∧
    (∃ l, resolveDst (.reg n) s = .next (l, s) ∧ readLoc l s = .next (s.reg n, s) ∧
      writeLoc l v s = .next (s.setReg n v)) ∧
    resolve (.ind n) s = .next (.mem (s.reg n), s) ∧
    (∃ t, resolve (.autoInc n) s = .next (.mem (s.reg n), t)) ∧
    ∀ w t, fetchWord s = .next (w, t) → resolve (.indexed n) s = .next (.mem (s.reg n + w), t)

/-- R60: reading and writing a word in RAM, in the I/O region, and anywhere else. -/
def Obligations.MemoryPrimitivesFollowTheMap : Prop :=
  ∀ (s : State) (a v : Word),
    (a.toNat < s.cfg.ramWords →
      (∀ x, Memory.read s.mem a.toNat = some x → memRead a s = .next (x, s)) ∧
      (∃ x k, memRead a s = .next (x, { s with draws := k })) ∧
      (∃ t, memWrite a v s = .next t ∧ t = { s with mem := t.mem } ∧
        ∀ k, Memory.read t.mem k = if k = a.toNat then some v else Memory.read s.mem k)) ∧
    (s.cfg.ramWords ≤ a.toNat → s.cfg.hasInt = true → 0xFF00 ≤ a.toNat →
      (∃ x k, memRead a s = .next (x, { s with ioTrace := .read a x :: s.ioTrace, draws := k })) ∧
      memWrite a v s = .next { s with ioTrace := .write a v :: s.ioTrace }) ∧
    (s.cfg.ramWords ≤ a.toNat → (s.cfg.hasInt = false ∨ a.toNat < 0xFF00) →
      memRead a s = .refused (.unimplementedAddress a) ∧
      memWrite a v s = .refused (.unimplementedAddress a))

/-- R65 (decision D31): a word that MOV stores where PC then points is the very next word fetched, and
so it is of a store by itself. -/
def Obligations.StoredWordIsFetchedNext : Prop :=
  (∀ (s t : State) (a v : Word), isRam s.cfg a = true → memWrite a v s = .next t →
    fetchWord { t with pc := a } = .next (v, { t with pc := a + 1 })) ∧
  ∀ (src dst : Operand) (s s₁ t : State) (v a : Word), OperandsReady src dst s v (.mem a) s₁ →
    isRam s.cfg a = true → exec (.mov src dst) s = .next t → t.pc = a →
    fetchWord t = .next (v, { t with pc := a + 1 })

/-- R114~R122 (formulas from general knowledge, G3; decisions D5, D6): the location of each of the eight
modes, with the mode's side effects, when the words it reads can be read; a destination resolves just
so, but for immediate mode, which is refused (R96, D8); and a source is the value of the location its
mode gives (R112, R123), refused where its mode or its read is. -/
def Obligations.AddressingModesGiveTheirLocations : Prop :=
  ∀ (s : State) (n : RegNum),
    resolve (.reg n) s = .next (.reg n, s) ∧
    resolve (.ind n) s = .next (.mem (s.reg n), s) ∧
    resolve (.autoInc n) s = .next (.mem (s.reg n), s.setReg n (s.reg n + 1)) ∧
    (accessible s.cfg s.pc = true →
      let w := s.peek s.pc
      let t := { s.afterRead s.pc with pc := s.pc + 1 }
      resolve .imm s = .next (.imm w, t) ∧
      resolve .direct s = .next (.mem w, t) ∧
      (accessible s.cfg w = true → resolve .indirect s = .next (.mem (t.peek w), t.afterRead w)) ∧
      resolve (.indexed n) s = .next (.mem (s.reg n + w), t) ∧
      resolve .relative s = .next (.mem (s.pc + 1 + w), t)) ∧
    resolveDst .imm s = .refused .immediateDestination ∧
    ∀ o : Operand,
      (o ≠ .imm → resolveDst o s = resolve o s) ∧
      (∀ r, resolve o s = .refused r → readSource o s = .refused r) ∧
      ∀ l t, resolve o s = .next (l, t) → readSource o s =
        match l with
        | .reg k => .next (t.reg k, t)
        | .imm v => .next (v, t)
        | .mem a => if accessible s.cfg a then .next (t.peek a, t.afterRead a)
                    else .refused (.unimplementedAddress a)

/-- The table of R126, derived from decisions D4 and D5, for every register: the same register in both
operands, with operand words in RAM; the index of MOV (Rn)+, d(Rn) for every displacement d. -/
def Obligations.SameRegisterInBothOperands : Prop :=
  ∀ (s : State) (n : RegNum) (x y : Word),
    isRam s.cfg (s.reg n) = true → isRam s.cfg (s.reg n + 1) = true →
    Memory.read s.mem (s.reg n).toNat = some x → Memory.read s.mem (s.reg n + 1).toNat = some y →
    (∃ t, exec (.mov (.reg n) (.autoInc n)) s = .next t ∧ t.reg n = s.reg n + 1 ∧
      Memory.read t.mem (s.reg n).toNat = some (s.reg n)) ∧
    (∃ t, exec (.mov (.autoInc n) (.reg n)) s = .next t ∧ t.reg n = x ∧ t.mem = s.mem) ∧
    (∃ t, exec (.add (.autoInc n) (.autoInc n)) s = .next t ∧ t.reg n = s.reg n + 2 ∧
      Memory.read t.mem (s.reg n + 1).toNat = some (y + x) ∧
      Memory.read t.mem (s.reg n).toNat = some x) ∧
    (∃ t, exec (.add (.autoInc n) (.reg n)) s = .next t ∧ t.reg n = s.reg n + 1 + x ∧ t.mem = s.mem) ∧
    (∀ d : Word, isRam s.cfg s.pc = true → Memory.read s.mem s.pc.toNat = some d →
      isRam s.cfg (s.reg n + 1 + d) = true →
      ∃ t, exec (.mov (.autoInc n) (.indexed n)) s = .next t ∧ t.reg n = s.reg n + 1 ∧
        ∀ k : Nat, Memory.read t.mem k =
          if k = (s.reg n + 1 + d).toNat then some x else Memory.read s.mem k) ∧
    (∃ t, exec (.add (.reg n) (.reg n)) s = .next t ∧ t.reg n = s.reg n + s.reg n ∧ t.mem = s.mem ∧
      t.psw = sumPsw (s.reg n) (s.reg n) false)

/-- R129, R125 (decisions D33, D34): the order of the accesses a device sees at a destination in the I/O
region. A read-modify-write instruction reads once and then writes once; MOV writes and does not
read; CMP and TEST read and do not write. Memory is untouched. -/
def Obligations.IoDestinationAccessesInOrder : Prop :=
  ∀ (a : Word),
    (∀ mk ∈ [Instr.inc, .dec, .not, .sar, .shl, .shr, .rol, .ror, .rcl, .rcr],
      ∀ (dst : Operand) (s s₁ : State), OperandReady dst s (.mem a) s₁ → isRam s.cfg a = false →
        ∃ t r, exec (mk dst) s = .next t ∧ t.mem = s.mem ∧
          t.ioTrace = .write a r :: .read a (s₁.peek a) :: s₁.ioTrace) ∧
    (∀ mk ∈ [Instr.add, .addc, .sub, .subb, .and, .or, .xor],
      ∀ (src dst : Operand) (s s₁ : State) (v : Word), OperandsReady src dst s v (.mem a) s₁ →
        isRam s.cfg a = false →
        ∃ t r, exec (mk src dst) s = .next t ∧ t.mem = s.mem ∧
          t.ioTrace = .write a r :: .read a (s₁.peek a) :: s₁.ioTrace) ∧
    (∀ (src dst : Operand) (s s₁ : State) (v : Word), OperandsReady src dst s v (.mem a) s₁ →
      isRam s.cfg a = false →
      (∃ t, exec (.mov src dst) s = .next t ∧ t.mem = s.mem ∧
        t.ioTrace = .write a v :: s₁.ioTrace) ∧
      ∀ mk ∈ [Instr.cmp, .test], ∃ t, exec (mk src dst) s = .next t ∧ t.mem = s.mem ∧
        t.ioTrace = .read a (s₁.peek a) :: s₁.ioTrace)

/-! ## Results -/

/-- R141 (general knowledge, G4): MOV copies the source's value to the destination; no flag changes. -/
def Obligations.MovCopiesItsSource : Prop :=
  ∀ (src dst : Operand) (s t : State) (v : Word) (l : Loc), OperandsReady src dst s v l t →
    exec (.mov src dst) s = .next (t.put l v) ∧ (t.put l v).psw = s.psw ∧
    (∀ n, l = .reg n → (t.put l v).reg n = v) ∧
    (∀ a, l = .mem a → isRam s.cfg a = true → Memory.read (t.put l v).mem a.toNat = some v)

/-- R150, R153, R154, R162 (formulas from general knowledge, decision D11): ADD, ADDC and INC write the
narrowed sum to the destination, CF exactly when the unsigned sum does not fit, OF exactly when the
signed sum does not fit, SF and ZF from the result. -/
def Obligations.AdditionsWriteSumAndFlags : Prop :=
  (∀ (src dst : Operand) (s t : State) (v : Word) (l : Loc), OperandsReady src dst s v l t →
    exec (.add src dst) s =
      .next (({ t.afterLoc l with psw := sumPsw (t.valueAt l) v false } : State).put l
        (sumWord (t.valueAt l) v false)) ∧
    exec (.addc src dst) s =
      .next (({ t.afterLoc l with psw := sumPsw (t.valueAt l) v s.psw.cf } : State).put l
        (sumWord (t.valueAt l) v s.psw.cf))) ∧
  (∀ (dst : Operand) (s t : State) (l : Loc), OperandReady dst s l t →
    exec (.inc dst) s =
      .next (({ t.afterLoc l with psw := sumPsw (t.valueAt l) 1 false } : State).put l
        (sumWord (t.valueAt l) 1 false)))

/-- R151, R155, R156, R163 (decisions D11, D12): SUB, SUBB and DEC write the narrowed difference,
destination minus source, CF exactly when there is a borrow, OF exactly when the signed difference
does not fit, SF and ZF from the result. -/
def Obligations.SubtractionsWriteDifferenceAndFlags : Prop :=
  (∀ (src dst : Operand) (s t : State) (v : Word) (l : Loc), OperandsReady src dst s v l t →
    exec (.sub src dst) s =
      .next (({ t.afterLoc l with psw := diffPsw (t.valueAt l) v false } : State).put l
        (diffWord (t.valueAt l) v false)) ∧
    exec (.subb src dst) s =
      .next (({ t.afterLoc l with psw := diffPsw (t.valueAt l) v s.psw.cf } : State).put l
        (diffWord (t.valueAt l) v s.psw.cf))) ∧
  (∀ (dst : Operand) (s t : State) (l : Loc), OperandReady dst s l t →
    exec (.dec dst) s =
      .next (({ t.afterLoc l with psw := diffPsw (t.valueAt l) 1 false } : State).put l
        (diffWord (t.valueAt l) 1 false)))

/-- R157 (decisions D11, D12): CMP writes the flags of destination minus source and stores nothing; so
ZF says equal, CF says below unsigned, SF different from OF says less signed. -/
def Obligations.CompareSetsFlagsOfTheDifference : Prop :=
  ∀ (src dst : Operand) (s t : State) (v : Word) (l : Loc), OperandsReady src dst s v l t →
    let d := t.valueAt l
    exec (.cmp src dst) s = .next { t.afterLoc l with psw := diffPsw d v false } ∧
    ((diffPsw d v false).zf = true ↔ d = v) ∧
    ((diffPsw d v false).cf = true ↔ d.toNat < v.toNat) ∧
    ((diffPsw d v false).sf ≠ (diffPsw d v false).of ↔ d.toInt < v.toInt)

/-- R152, R158~R161, R164: AND, OR, XOR, NOT write the bitwise result, SF and ZF from it; TEST writes the
flags of AND only; OF and CF are free values (decision D10, log 9), two of them drawn. -/
def Obligations.LogicWritesResultAndItsFlags : Prop :=
  (∀ (src dst : Operand) (s t : State) (v : Word) (l : Loc), OperandsReady src dst s v l t →
    let d := t.valueAt l
    (∀ e ∈ [(Instr.and, d &&& v), (.or, d ||| v), (.xor, d ^^^ v)], ∃ cf of,
      exec (e.1 src dst) s =
        .next (({ (t.afterLoc l).drew 2 with psw := resultPsw e.2 cf of } : State).put l e.2)) ∧
    ∃ cf of, exec (.test src dst) s =
      .next { (t.afterLoc l).drew 2 with psw := resultPsw (d &&& v) cf of }) ∧
  (∀ (dst : Operand) (s t : State) (l : Loc), OperandReady dst s l t → ∃ cf of,
    exec (.not dst) s =
      .next (({ (t.afterLoc l).drew 2 with psw := resultPsw (~~~(t.valueAt l)) cf of } : State).put l
        (~~~(t.valueAt l))))

/-- R180~R187 (general knowledge, G8; decision D13): each of the seven moves the word by one bit, CF gets
the bit that leaves it; SF, ZF and OF are free values (decision D10, log 9), three of them drawn. -/
def Obligations.ShiftsMoveOneBit : Prop :=
  ∀ e ∈ shiftTable, ∀ (dst : Operand) (s t : State) (l : Loc), OperandReady dst s l t →
    ∃ sf zf of,
      exec (e.op dst) s =
        .next (({ (t.afterLoc l).drew 3 with
                  psw := { cf := e.out (t.valueAt l), of := of, sf := sf, zf := zf } } : State).put l
          (e.result (t.valueAt l) s.psw.cf))

/-- R184~R187, corner cases: sixteen ROLs or RORs of a register restore it, seventeen RCLs or RCRs
restore it and CF. -/
def Obligations.RotationsHaveTheirPeriod : Prop :=
  ∀ (s : State) (n : RegNum),
    (∀ i ∈ [Instr.rol (.reg n), .ror (.reg n)], ∃ t, execTimes 16 i s = .next t ∧ t.reg n = s.reg n) ∧
    (∀ i ∈ [Instr.rcl (.reg n), .rcr (.reg n)], ∃ t, execTimes 17 i s = .next t ∧
      t.reg n = s.reg n ∧ t.psw.cf = s.psw.cf)

/-- R140, R142, R143 (general knowledge, G5; decisions D16, D17): PUSH stores the operand's value at
SP - 1 and leaves SP there; POP writes the word at SP to the destination and adds 1 to SP. -/
def Obligations.PushAndPopMoveThroughTheStack : Prop :=
  (∀ (dst : Operand) (s t : State) (l : Loc), OperandReady dst s l t →
    accessible s.cfg (s.sp - 1) = true →
    exec (.push dst) s =
      .next (({ t.afterLoc l with sp := s.sp - 1 } : State).store (s.sp - 1) (t.valueAt l))) ∧
  (∀ (dst : Operand) (s t : State) (l : Loc), OperandReady dst s l t →
    accessible s.cfg s.sp = true →
    exec (.pop dst) s =
      .next (({ t.afterRead s.sp with sp := s.sp + 1 } : State).put l (t.peek s.sp)))

/-- R140: a word pushed on a stack in RAM is the word a POP into a register then gives, and SP is back. -/
def Obligations.PopGivesBackThePushedWord : Prop :=
  ∀ (o : Operand) (n : RegNum) (s t u : State) (l : Loc), OperandReady o s l t →
    isRam s.cfg (s.sp - 1) = true → exec (.push o) s = .next u →
    ∃ w, exec (.pop (.reg n)) u = .next w ∧ w.reg n = t.valueAt l ∧ w.sp = s.sp ∧
      w.mem = u.mem ∧ (∀ m, m ≠ n → w.reg m = u.reg m)

/-- R200~R210 (target: decision D14; conditions: general knowledge, G9; untaken jumps: decision D15): a
jump goes to the effective address of its operand when its condition holds, else PC stays past the
instruction. -/
def Obligations.JumpsGoToTheEffectiveAddress : Prop :=
  ∀ e ∈ jumpTable, ∀ (dst : Operand) (s t : State) (a : Word), resolveDst dst s = .next (.mem a, t) →
    (e.2 s.psw → exec (e.1 dst) s = .next { t with pc := a }) ∧
    (¬ e.2 s.psw → exec (e.1 dst) s = .next t)

/-- R97, R202, and the BM = 3 row of R287: the condition of a conditional jump is read from the opcode
bits, `ir[8:7]` the flag and `ir[6]` the value that does not jump; the controller's test agrees. -/
def Obligations.JumpConditionIsReadFromTheOpcode : Prop :=
  ∀ (c : Config) (w : Word) (i : Instr) (d : Operand) (s t : State) (a : Word),
    decodeWord c w = .ok i → w.extractLsb' 9 7 = 0b0000001 → i.dst? = some d →
    resolveDst d s = .next (.mem a, t) →
    let flag := match w.getLsbD 8, w.getLsbD 7 with
      | false, false => s.psw.cf
      | false, true => s.psw.of
      | true, false => s.psw.zf
      | true, true => s.psw.sf
    let taken : Bool := flag == !(w.getLsbD 6)
    exec i s = .next (if taken then { t with pc := a } else t) ∧
    ∀ (m : MicroInstr) (q : MicroTests) (n : Nat), m.bm = 3 → q.ir = w → q.psw = s.psw →
      ∃ x, nextMicroAddr m q n = some x ∧ x.getLsbD 0 = taken ∧
        x.extractLsb' 1 8 = m.na.extractLsb' 1 8

/-- R200 (decision D14): a jump or CALL with a register operand is refused, whether or not a condition
holds. -/
def Obligations.JumpToRegisterIsRefused : Prop :=
  ∀ (i : Instr) (n : RegNum) (s : State), i.isTransfer = true → i.dst? = some (.reg n) →
    exec i s = .refused .jumpToRegisterOperand

/-- R220, R221 (general knowledge, G10; decisions D14, D18, D19): CALL pushes the address after the whole
instruction and goes to the effective address; RET pops PC. -/
def Obligations.CallAndRetUseTheStack : Prop :=
  (∀ (dst : Operand) (s t : State) (a : Word), resolveDst dst s = .next (.mem a, t) →
    accessible s.cfg (s.sp - 1) = true →
    exec (.call dst) s =
      .next { ({ t with sp := s.sp - 1 } : State).store (s.sp - 1)
                (s.pc + BitVec.ofNat 16 dst.constWords) with pc := a }) ∧
  (∀ s : State, accessible s.cfg s.sp = true →
    exec .ret s = .next { s.afterRead s.sp with sp := s.sp + 1, pc := s.peek s.sp })

/-- R220, R221: when a subroutine called with a stack in RAM comes to RET with SP and memory as CALL
left them, it returns to the word after the CALL, with SP as before it. -/
def Obligations.RetReturnsAfterItsCall : Prop :=
  ∀ (dst : Operand) (s t u : State), exec (.call dst) s = .next t → isRam s.cfg (s.sp - 1) = true →
    u.sp = t.sp → u.mem = t.mem → u.cfg = t.cfg →
    ∃ w, exec .ret u = .next w ∧ w.pc = s.pc + BitVec.ofNat 16 dst.constWords ∧ w.sp = s.sp ∧
      w.regs = u.regs ∧ w.psw = u.psw ∧ w.ie = u.ie

/-- R230, R231, R233, R234 (general knowledge, G11, G12; decisions D23~D25): HALT, NOP, EI and DI do
exactly this and nothing else; the check that ends the step sees EI's and DI's effect. That the
request is the first of a list of answers, used up at the check after EI and also, with IE = 0, at the
check after DI, is the model's choice (log 7, DESIGN CHOICE). -/
def Obligations.ControlInstructionsDoExactlyThis : Prop :=
  ∀ s : State,
    exec .halt s = .next { s with halted := true } ∧
    exec .nop s = .next s ∧
    exec .ei s = .next { s with ie := true } ∧
    exec .di s = .next { s with ie := false } ∧
    (∀ n later, s.cfg.hasInt = true → s.halted = false → s.intInputs = some n :: later →
      andThen (exec .ei s) interruptCheck = interruptEntry n { s with ie := true, intInputs := later } ∧
      andThen (exec .di s) interruptCheck = .next { s with ie := false, intInputs := later })

/-- R232 (decisions D22, D40): RETI pops PSW if INT_SAVES_PSW, then PC, and sets IE. -/
def Obligations.RetiRestoresAndEnables : Prop :=
  ∀ s : State, accessible s.cfg s.sp = true →
    (s.cfg.intSavesPsw = false →
      exec .reti s = .next { s.afterRead s.sp with pc := s.peek s.sp, sp := s.sp + 1, ie := true }) ∧
    (s.cfg.intSavesPsw = true → accessible s.cfg (s.sp + 1) = true →
      let w := s.peek s.sp
      let t := { s.afterRead s.sp with sp := s.sp + 1 }
      exec .reti s =
        .next { t.afterRead (s.sp + 1) with
                pc := t.peek (s.sp + 1), sp := s.sp + 2, ie := true,
                psw := { cf := w.getLsbD 0, of := w.getLsbD 1, zf := w.getLsbD 2, sf := w.getLsbD 3 } })

/-! ## Interrupts -/

/-- R257 (decisions D21, D40): interrupt entry pushes PC, then PSW if INT_SAVES_PSW, clears IE and loads
PC from the word at the vector's address. -/
def Obligations.InterruptEntrySavesAndVectors : Prop :=
  ∀ (n : VecNum) (s : State), accessible s.cfg (s.sp - 1) = true →
    (s.cfg.intSavesPsw = true → accessible s.cfg (s.sp - 2) = true) →
    accessible s.cfg (BitVec.ofNat 16 n.val) = true →
    let flags : Word :=
      BitVec.ofNat 16 (8 * s.psw.sf.toNat + 4 * s.psw.zf.toNat + 2 * s.psw.of.toNat + s.psw.cf.toNat)
    let s₁ := ({ s with sp := s.sp - 1 } : State).store (s.sp - 1) s.pc
    let s₂ := if s.cfg.intSavesPsw then ({ s₁ with sp := s.sp - 2 } : State).store (s.sp - 2) flags else s₁
    let s₃ := { s₂ with ie := false }
    interruptEntry n s =
      .next { s₃.afterRead (BitVec.ofNat 16 n.val) with pc := s₃.peek (BitVec.ofNat 16 n.val) }

/-- R252, R253, R254: without HAS_INT or when halted no check is made. At a check the environment answers
once; an interrupt is accepted exactly when the request is present and IE = 1, and otherwise nothing
else happens. That the answers are a list, one used up at each check whatever IE is, and that an empty
list means no request, is the model's choice (log 7, DESIGN CHOICE). IE is set by EI and RETI, cleared
by DI and by interrupt entry (decisions D21~D23, log 29). -/
def Obligations.InterruptAcceptedWhenRequestedAndEnabled : Prop :=
  (∀ s : State, s.cfg.hasInt = false ∨ s.halted = true → interruptCheck s = .next s) ∧
  (∀ s : State, s.cfg.hasInt = true → s.halted = false →
    (s.intInputs = [] → interruptCheck s = .next s) ∧
    (∀ later, s.intInputs = none :: later → interruptCheck s = .next { s with intInputs := later }) ∧
    (∀ n later, s.intInputs = some n :: later →
      (s.ie = true → interruptCheck s = interruptEntry n { s with intInputs := later }) ∧
      (s.ie = false → interruptCheck s = .next { s with intInputs := later }))) ∧
  (∀ s t : State, (exec .ei s = .next t → t.ie = true) ∧ (exec .reti s = .next t → t.ie = true) ∧
    (exec .di s = .next t → t.ie = false) ∧ (∀ n, interruptEntry n s = .next t → t.ie = false))

/-- The BM = 1 row of R287 with the allocation of R288, and R254: from NA = 000H the micro-branch on
INTR·IE goes to the interrupt-response entry 080H when there is a request and IE = 1, and to the
instruction fetch otherwise. -/
def Obligations.InterruptMicroBranchTestsIntrAndIe : Prop :=
  ∀ (m : MicroInstr) (t : MicroTests) (n : Nat), m.bm = 1 → m.na = 0x000 →
    (nextMicroAddr m t n).bind microProgramAt =
      if t.intr = true ∧ t.ie = true then some .interruptEntry else some .instructionFetch

/-- R259: RETI restores what interrupt entry saved. When a handler entered with a stack in RAM comes to
RETI with SP and memory as the entry left them, PC and SP are those of the interrupted program, IE
is 1, and with INT_SAVES_PSW the flags are the interrupted program's too. -/
def Obligations.RetiUndoesInterruptEntry : Prop :=
  ∀ (n : VecNum) (s t u : State), interruptEntry n s = .next t → isRam s.cfg (s.sp - 1) = true →
    (s.cfg.intSavesPsw = true → isRam s.cfg (s.sp - 2) = true) →
    u.sp = t.sp → u.mem = t.mem → u.cfg = t.cfg →
    ∃ w, exec .reti u = .next w ∧ w.pc = s.pc ∧ w.sp = s.sp ∧ w.ie = true ∧ w.regs = u.regs ∧
      w.psw = if s.cfg.intSavesPsw then s.psw else u.psw

/-! ## Frames -/

/-- Frame of the double-operand instructions that store: MOV, ADD, ADDC, SUB, SUBB, AND, OR, XOR. The
location is the one `resolveDst` gives after the source has been read. -/
def Obligations.DoubleOperandStoreFrame : Prop :=
  ∀ mk ∈ [Instr.mov, .add, .addc, .sub, .subb, .and, .or, .xor],
    ∀ (src dst : Operand) (s s₁ s₂ t : State) (v : Word) (l : Loc),
    exec (mk src dst) s = .next t → readSource src s = .next (v, s₁) →
    resolveDst dst s₁ = .next (l, s₂) →
    RegsSameBut s t (fun n => l = .reg n ∨ src = .autoInc n ∨ dst = .autoInc n) ∧
    t.sp = s.sp ∧ ControlSame s t ∧ StoredOnlyAt s t l ∧
    (mk src dst = .mov src dst → t.psw = s.psw)

/-- Frame of CMP and TEST: they store nothing; only auto-incremented registers, PSW and PC change. -/
def Obligations.CompareAndTestFrame : Prop :=
  ∀ mk ∈ [Instr.cmp, .test], ∀ (src dst : Operand) (s t : State), exec (mk src dst) s = .next t →
    RegsSameBut s t (fun n => src = .autoInc n ∨ dst = .autoInc n) ∧
    t.sp = s.sp ∧ ControlSame s t ∧ StoredNowhere s t

/-- Frame of the single-operand instructions that compute: INC, DEC, NOT and the seven shifts. -/
def Obligations.SingleOperandStoreFrame : Prop :=
  ∀ mk ∈ [Instr.inc, .dec, .not, .sar, .shl, .shr, .rol, .ror, .rcl, .rcr],
    ∀ (dst : Operand) (s s₁ t : State) (l : Loc),
    exec (mk dst) s = .next t → resolveDst dst s = .next (l, s₁) →
    RegsSameBut s t (fun n => l = .reg n ∨ dst = .autoInc n) ∧
    t.sp = s.sp ∧ ControlSame s t ∧ StoredOnlyAt s t l

/-- Frame of the nine jumps: only PC and an auto-incremented register change. -/
def Obligations.JumpFrame : Prop :=
  ∀ e ∈ jumpTable, ∀ (dst : Operand) (s t : State), exec (e.1 dst) s = .next t →
    RegsSameBut s t (fun n => dst = .autoInc n) ∧ t.sp = s.sp ∧ t.psw = s.psw ∧
    ControlSame s t ∧ StoredNowhere s t

/-- Frame of PUSH, POP, CALL, RET and RETI: SP moves by one word (RETI: by two with INT_SAVES_PSW); PUSH
and CALL store one word, at SP - 1; POP stores at its destination's location; RET and RETI store
nothing. RETI writes IE, and PSW with INT_SAVES_PSW. The direction of the stack, its slots and the pops
are decisions D16~D19 (log 16); what RETI pops and writes, D21 and D22 (log 29). -/
def Obligations.StackInstructionFrame : Prop :=
  (∀ mk ∈ [Instr.push, .call], ∀ (dst : Operand) (s t : State), exec (mk dst) s = .next t →
    RegsSameBut s t (fun n => dst = .autoInc n) ∧ t.sp = s.sp - 1 ∧ t.psw = s.psw ∧
    ControlSame s t ∧ StoredOnlyAt s t (.mem (s.sp - 1))) ∧
  (∀ (dst : Operand) (s s₁ t : State) (l : Loc), exec (.pop dst) s = .next t →
    resolveDst dst s = .next (l, s₁) →
    RegsSameBut s t (fun n => l = .reg n ∨ dst = .autoInc n) ∧ t.sp = s.sp + 1 ∧ t.psw = s.psw ∧
    ControlSame s t ∧ StoredOnlyAt s t l) ∧
  (∀ s t : State, exec .ret s = .next t →
    t.regs = s.regs ∧ t.sp = s.sp + 1 ∧ t.psw = s.psw ∧ ControlSame s t ∧ StoredNowhere s t) ∧
  (∀ s t : State, exec .reti s = .next t →
    t.regs = s.regs ∧ t.sp = s.sp + (if s.cfg.intSavesPsw then 2 else 1) ∧
    (s.cfg.intSavesPsw = false → t.psw = s.psw) ∧ ControlSame { s with ie := true } t ∧
    StoredNowhere s t)

/-! ## The whole machine -/

/-- Every step keeps the invariant, from every state that meets it. -/
def Obligations.StepKeepsTheInvariant : Prop :=
  ∀ s t : State, s.Inv → step s = .next t → t.Inv

/-- The state after reset meets the invariant. -/
def Obligations.ResetMeetsTheInvariant : Prop := State.reset.Inv

/-- Where every address is RAM or I/O, every one of the 38 instructions completes, in every form but the
two the spec refuses (immediate destination, R96; register operand of a jump or CALL, R200); and so
does a step that fetches it. -/
def Obligations.EveryInstructionCompletes : Prop :=
  ∀ (i : Instr) (s : State), s.FullyBacked → i.dstLegal = true →
    (i.isTransfer = true → ∀ n, i.dst? ≠ some (.reg n)) →
    (∃ t, exec i s = .next t) ∧
    (s.halted = false → decodeWord s.cfg (s.peek s.pc) = .ok i → ∃ t, step s = .next t)

/-- R250, R251 (decision D36): no instruction raises an exception; an instruction is refused only for an
immediate destination, a register operand of a jump or CALL, or an unimplemented address; and a
step faults only when the machine is halted. -/
def Obligations.NoSynchronousExceptions : Prop :=
  (∀ (i : Instr) (s : State),
    (∀ f, exec i s ≠ .fault f) ∧
    ∀ r, exec i s = .refused r →
      (r = .immediateDestination ∧ i.dstLegal = false) ∨
      (r = .jumpToRegisterOperand ∧ i.isTransfer = true ∧ ∃ n, i.dst? = some (.reg n)) ∨
      ∃ a, r = .unimplementedAddress a ∧ accessible s.cfg a = false) ∧
  (∀ (s : State) (f : Fault), step s = .fault f → s.halted = true)

/-- R28: an instruction depends on no flag but those it is said to read: ADDC, SUBB, RCL, RCR, JC and
JNC on CF, JO and JNO on OF, JZ and JNZ on ZF, JS and JNS on SF, all others on none. With any other
flags its outcome is the same, but for flags it leaves as they were. -/
def Obligations.FlagsAreReadByTheirReadersOnly : Prop :=
  ∀ (i : Instr) (s t : State) (p : Psw), ReadsAlike i s.psw p → exec i s = .next t →
    ∃ q, (q = p ∨ q = t.psw) ∧ exec i { s with psw := p } = .next { t with psw := q }

/-- R30: of the instructions only PUSH, POP, CALL, RET and RETI use SP (interrupt entry, which is no
instruction, does too): every other leaves it alone and does the same whatever it holds. That these five
move it by one word, RETI by one or two, is R140 and R232 (decisions D16, D22). -/
def Obligations.StackPointerIsUsedByFiveInstructions : Prop :=
  ∀ (i : Instr) (s t : State), exec i s = .next t →
    (usesSp i = false → t.sp = s.sp ∧ ∀ v, exec i { s with sp := v } = .next { t with sp := v }) ∧
    (t.sp = s.sp ∨ t.sp = s.sp - 1 ∨ t.sp = s.sp + 1 ∨ (i = .reti ∧ t.sp = s.sp + 2))

/-- R31, R32, R38: among the instructions IE is written by EI, DI and RETI alone (interrupt entry, which is
no instruction, clears it), halted by HALT alone (decisions D22, D24), and no instruction
touches the configuration, the environment's inputs, IR or the controller. -/
def Obligations.ControlStateHasItsWriters : Prop :=
  ∀ (i : Instr) (s t : State), exec i s = .next t →
    t.ie = (if i = .ei ∨ i = .reti then true else if i = .di then false else s.ie) ∧
    t.halted = (s.halted || decide (i = .halt)) ∧
    t.cfg = s.cfg ∧ t.intInputs = s.intInputs ∧ t.ir = s.ir ∧ t.micro = s.micro
end

