-- ==== Sys2Proof/Laws/Decode.lean ====
section
/-! SUPPORT. Fields of assembled instruction words (spec R82~R86, R101). -/

namespace Sys2Proof

/-- The address code `{M, R}` is read back as the operand it was assembled from (R86, R87). -/
@[simp] theorem decodeOperand_encode (o : Operand) : decodeOperand (encodeMode o) (encodeReg o) = o := by
  cases o with
  | reg n | ind n | autoInc n | indexed n => revert n; decide
  | imm | direct | indirect | relative => decide

/-- Fields of a format D word. -/
theorem assembleD_fields (op : BitVec 4) (s d : Operand) :
    fieldOp (assembleD op s d) = op.toNat ∧ fieldMs (assembleD op s d) = encodeMode s ∧
    fieldRs (assembleD op s d) = encodeReg s ∧ fieldMd (assembleD op s d) = encodeMode d ∧
    fieldRd (assembleD op s d) = encodeReg d := by
  refine ⟨congrArg BitVec.toNat ?_, ?_, ?_, ?_, ?_⟩ <;>
  · apply BitVec.eq_of_getLsbD_eq
    intro i hi
    simp only [assembleD, fieldMs, fieldRs, fieldMd, fieldRd, BitVec.getLsbD_extractLsb',
      BitVec.getLsbD_append]
    interval_cases i <;> simp

/-- Fields of a format S word. -/
theorem assembleS_fields (sop : BitVec 6) (d : Operand) :
    fieldOp (assembleS sop d) = 0 ∧ fieldSop (assembleS sop d) = sop.toNat ∧
    fieldMd (assembleS sop d) = encodeMode d ∧ fieldRd (assembleS sop d) = encodeReg d := by
  refine ⟨congrArg BitVec.toNat (a₂ := 0#4) ?_, congrArg BitVec.toNat ?_, ?_, ?_⟩ <;>
  · apply BitVec.eq_of_getLsbD_eq
    intro i hi
    simp only [assembleS, fieldMd, fieldRd, BitVec.getLsbD_extractLsb', BitVec.getLsbD_append]
    interval_cases i <;> simp

namespace Laws.Classified

/-- An assigned format D opcode is found again in the word. -/
theorem double_word {mk : Operand → Operand → Instr} (op : BitVec 4) (h0 : op.toNat ≠ 0)
    (hop : doubleOp op.toNat = some mk) (src dst : Operand) :
    wordFormat (assembleD op src dst) = .double ∧
      instrOfWord (assembleD op src dst) = some (mk src dst) := by
  obtain ⟨h1, h2, h3, h4, h5⟩ := assembleD_fields op src dst
  have hf : wordFormat (assembleD op src dst) = .double := by simp [wordFormat, h1, h0]
  exact ⟨hf, by simp [instrOfWord, hf, h1, h2, h3, h4, h5, hop]⟩

/-- An assigned format S opcode is found again in the word. -/
theorem single_word {mk : Operand → Instr} (sop : BitVec 6) (h0 : sop.toNat ≠ 0)
    (hop : singleOp sop.toNat = some mk) (dst : Operand) :
    wordFormat (assembleS sop dst) = .single ∧
      instrOfWord (assembleS sop dst) = some (mk dst) := by
  obtain ⟨h1, h2, h3, h4⟩ := assembleS_fields sop dst
  have hf : wordFormat (assembleS sop dst) = .single := by simp [wordFormat, h1, h2, h0]
  exact ⟨hf, by simp [instrOfWord, hf, h2, h3, h4, hop]⟩

end Laws.Classified

end Sys2Proof
end

