-- ==== Sys2Proof/Laws/State.lean ====
section
/-! SUPPORT. One lemma per field of State per update, all true by definition, and reading a register
after writing one. -/

namespace Sys2Proof.Machine

@[simp] theorem State.setReg_pc (s : State) (n : RegNum) (v : Word) : (s.setReg n v).pc = s.pc := rfl
@[simp] theorem State.setReg_sp (s : State) (n : RegNum) (v : Word) : (s.setReg n v).sp = s.sp := rfl
@[simp] theorem State.setReg_psw (s : State) (n : RegNum) (v : Word) : (s.setReg n v).psw = s.psw := rfl
@[simp] theorem State.setReg_ie (s : State) (n : RegNum) (v : Word) : (s.setReg n v).ie = s.ie := rfl
@[simp] theorem State.setReg_halted (s : State) (n : RegNum) (v : Word) :
    (s.setReg n v).halted = s.halted := rfl
@[simp] theorem State.setReg_mem (s : State) (n : RegNum) (v : Word) : (s.setReg n v).mem = s.mem := rfl
@[simp] theorem State.setReg_ir (s : State) (n : RegNum) (v : Word) : (s.setReg n v).ir = s.ir := rfl
@[simp] theorem State.setReg_micro (s : State) (n : RegNum) (v : Word) :
    (s.setReg n v).micro = s.micro := rfl
@[simp] theorem State.setReg_cfg (s : State) (n : RegNum) (v : Word) : (s.setReg n v).cfg = s.cfg := rfl
@[simp] theorem State.setReg_intInputs (s : State) (n : RegNum) (v : Word) :
    (s.setReg n v).intInputs = s.intInputs := rfl
@[simp] theorem State.setReg_ioTrace (s : State) (n : RegNum) (v : Word) :
    (s.setReg n v).ioTrace = s.ioTrace := rfl
@[simp] theorem State.setReg_draws (s : State) (n : RegNum) (v : Word) :
    (s.setReg n v).draws = s.draws := rfl

@[simp] theorem State.drew_regs (s : State) (k : Nat) : (s.drew k).regs = s.regs := rfl
@[simp] theorem State.drew_pc (s : State) (k : Nat) : (s.drew k).pc = s.pc := rfl
@[simp] theorem State.drew_sp (s : State) (k : Nat) : (s.drew k).sp = s.sp := rfl
@[simp] theorem State.drew_psw (s : State) (k : Nat) : (s.drew k).psw = s.psw := rfl
@[simp] theorem State.drew_ie (s : State) (k : Nat) : (s.drew k).ie = s.ie := rfl
@[simp] theorem State.drew_halted (s : State) (k : Nat) : (s.drew k).halted = s.halted := rfl
@[simp] theorem State.drew_mem (s : State) (k : Nat) : (s.drew k).mem = s.mem := rfl
@[simp] theorem State.drew_ir (s : State) (k : Nat) : (s.drew k).ir = s.ir := rfl
@[simp] theorem State.drew_micro (s : State) (k : Nat) : (s.drew k).micro = s.micro := rfl
@[simp] theorem State.drew_cfg (s : State) (k : Nat) : (s.drew k).cfg = s.cfg := rfl
@[simp] theorem State.drew_intInputs (s : State) (k : Nat) : (s.drew k).intInputs = s.intInputs := rfl
@[simp] theorem State.drew_ioTrace (s : State) (k : Nat) : (s.drew k).ioTrace = s.ioTrace := rfl
@[simp] theorem State.drew_draws (s : State) (k : Nat) : (s.drew k).draws = s.draws + k := rfl

/-- `reg` looks at the register file only. -/
theorem State.reg_congr {s t : State} (h : t.regs = s.regs) (n : RegNum) : t.reg n = s.reg n := by
  simp only [State.reg, h]

/-- Reading a register after writing one: no aliases, no hard-wired register (R20). -/
theorem State.reg_setReg (s : State) (n m : RegNum) (v : Word) :
    (s.setReg n v).reg m = if n = m then v else s.reg m := by
  simp [State.reg, State.setReg, Vector.getElem_set, Fin.ext_iff]

@[simp] theorem State.reg_setReg_self (s : State) (n : RegNum) (v : Word) : (s.setReg n v).reg n = v := by
  simp [State.reg_setReg]

theorem State.reg_setReg_ne (s : State) {n m : RegNum} (v : Word) (h : n ≠ m) :
    (s.setReg n v).reg m = s.reg m := by
  simp [State.reg_setReg, h]

end Sys2Proof.Machine
end

