-- ==== Sys2Proof/Laws/Memory.lean ====
section
/-! SUPPORT. Memory: read after write, every operation keeps the canonical form, and what a read or a
write of one word can do to the state. -/

namespace Sys2Proof.Machine

/-- Read after write: the written address reads as written, every other as before. -/
theorem Memory.read_write (m : Memory) (a b : Nat) (v : Word) (h : Memory.wf m) :
    Memory.read (Memory.write m a v) b = if b = a then some v else Memory.read m b := by
  induction m with
  | nil => simp [Memory.write, Memory.read]
  | cons e m ih =>
    obtain ⟨k, x⟩ := e
    have hm : Memory.wf m := (List.pairwise_cons.mp h).2
    by_cases h1 : a < k
    · simp [Memory.write, Memory.read, h1]
    · by_cases h2 : a = k
      · subst h2; by_cases h3 : b = a <;> simp [Memory.write, Memory.read, h3]
      · by_cases h3 : b = k
        · subst h3; simp [Memory.write, Memory.read, h1, h2, Ne.symm h2]
        · simp [Memory.write, Memory.read, h1, h2, h3, ih hm]

/-- Read after write needs no canonical form. -/
theorem Memory.read_write_self (m : Memory) (a : Nat) (v : Word) :
    Memory.read (Memory.write m a v) a = some v := by
  induction m with
  | nil => simp [Memory.write, Memory.read]
  | cons e m ih =>
    obtain ⟨k, x⟩ := e
    by_cases h1 : a < k
    · simp [Memory.write, Memory.read, h1]
    · by_cases h2 : a = k
      · simp [Memory.write, Memory.read, h2]
      · simp [Memory.write, Memory.read, h1, h2, ih]

/-- A write leaves every other address alone, canonical or not. -/
theorem Memory.read_write_ne (m : Memory) {a b : Nat} (v : Word) (h : b ≠ a) :
    Memory.read (Memory.write m a v) b = Memory.read m b := by
  induction m with
  | nil => simp [Memory.write, Memory.read, h]
  | cons e m ih =>
    obtain ⟨k, x⟩ := e
    by_cases h1 : a < k
    · simp [Memory.write, Memory.read, h1, h]
    · by_cases h2 : a = k
      · subst h2; simp [Memory.write, Memory.read, h]
      · simp only [Memory.write, h1, h2, if_false, Memory.read, ih]

/-- The addresses listed after a write are those listed before and the one written. -/
theorem Memory.mem_write {m : Memory} {a : Nat} {v : Word} {e : Nat × Word}
    (h : e ∈ Memory.write m a v) : e = (a, v) ∨ e ∈ m := by
  induction m with
  | nil => simpa [Memory.write] using h
  | cons x m ih =>
    obtain ⟨k, y⟩ := x
    by_cases h1 : a < k
    · simpa [Memory.write, h1] using h
    · by_cases h2 : a = k
      · simp only [Memory.write, h2, lt_irrefl, if_false, if_true, List.mem_cons] at h ⊢
        aesop
      · simp only [Memory.write, h1, h2, if_false, List.mem_cons] at h ⊢
        rcases h with h | h
        · exact .inr (.inl h)
        · exact (ih h).imp id .inr

/-- A write keeps the canonical form. -/
theorem Memory.wf_write {m : Memory} (a : Nat) (v : Word) (h : Memory.wf m) :
    Memory.wf (Memory.write m a v) := by
  induction m with
  | nil => simp [Memory.write, Memory.wf]
  | cons x m ih =>
    obtain ⟨k, y⟩ := x
    have hk := (List.pairwise_cons.mp h).1
    have hm : Memory.wf m := (List.pairwise_cons.mp h).2
    by_cases h1 : a < k
    · simp only [Memory.write, h1, if_true]
      refine List.pairwise_cons.mpr ⟨?_, h⟩
      intro b hb
      rcases List.mem_cons.mp hb with rfl | hb
      · exact h1
      · exact Nat.lt_trans h1 (hk b hb)
    · by_cases h2 : a = k
      · subst h2
        simp only [Memory.write, h1, if_false, if_true]
        exact List.pairwise_cons.mpr ⟨hk, hm⟩
      · simp only [Memory.write, h1, h2, if_false]
        refine List.pairwise_cons.mpr ⟨?_, ih hm⟩
        intro b hb
        obtain ⟨e, he, rfl⟩ := List.mem_map.mp hb
        rcases Memory.mem_write he with rfl | he
        · show k < a
          omega
        · exact hk _ (List.mem_map.mpr ⟨e, he, rfl⟩)

/-- Loading words keeps the canonical form. -/
theorem loadWords_wf (ws : List Word) : ∀ {m : Memory} (a : Word), Memory.wf m → Memory.wf (loadWords m a ws) := by
  induction ws with
  | nil => intro m a h; exact h
  | cons w ws ih => intro m a h; exact ih _ (Memory.wf_write _ _ h)

/-! The state after one access: which fields it can touch. -/

/-- A read touches the record of I/O accesses and the count of free values only. -/
theorem State.afterRead_eq (s : State) (a : Word) :
    s.afterRead a = { s with ioTrace := (s.afterRead a).ioTrace, draws := (s.afterRead a).draws } := by
  unfold State.afterRead; split
  · split <;> rfl
  · rfl

@[simp] theorem State.afterRead_regs (s : State) (a : Word) : (s.afterRead a).regs = s.regs := by
  rw [State.afterRead_eq]
@[simp] theorem State.afterRead_reg (s : State) (a : Word) (n : RegNum) : (s.afterRead a).reg n = s.reg n :=
  State.reg_congr (by simp) n
@[simp] theorem State.afterRead_pc (s : State) (a : Word) : (s.afterRead a).pc = s.pc := by
  rw [State.afterRead_eq]
@[simp] theorem State.afterRead_sp (s : State) (a : Word) : (s.afterRead a).sp = s.sp := by
  rw [State.afterRead_eq]
@[simp] theorem State.afterRead_psw (s : State) (a : Word) : (s.afterRead a).psw = s.psw := by
  rw [State.afterRead_eq]
@[simp] theorem State.afterRead_ie (s : State) (a : Word) : (s.afterRead a).ie = s.ie := by
  rw [State.afterRead_eq]
@[simp] theorem State.afterRead_halted (s : State) (a : Word) : (s.afterRead a).halted = s.halted := by
  rw [State.afterRead_eq]
@[simp] theorem State.afterRead_mem (s : State) (a : Word) : (s.afterRead a).mem = s.mem := by
  rw [State.afterRead_eq]
@[simp] theorem State.afterRead_ir (s : State) (a : Word) : (s.afterRead a).ir = s.ir := by
  rw [State.afterRead_eq]
@[simp] theorem State.afterRead_micro (s : State) (a : Word) : (s.afterRead a).micro = s.micro := by
  rw [State.afterRead_eq]
@[simp] theorem State.afterRead_cfg (s : State) (a : Word) : (s.afterRead a).cfg = s.cfg := by
  rw [State.afterRead_eq]
@[simp] theorem State.afterRead_intInputs (s : State) (a : Word) :
    (s.afterRead a).intInputs = s.intInputs := by rw [State.afterRead_eq]

/-- A read adds at most its own event, and only outside RAM. -/
theorem State.afterRead_ioTrace (s : State) (a : Word) :
    (s.afterRead a).ioTrace = if isRam s.cfg a then s.ioTrace else .read a (s.peek a) :: s.ioTrace := by
  unfold State.afterRead; split
  · split <;> rfl
  · rfl

/-- A RAM word that is stored is read as stored, with no side effect (R60, R61). -/
theorem State.peek_of_read {s : State} {a x : Word} (hr : isRam s.cfg a = true)
    (hx : Memory.read s.mem a.toNat = some x) : s.peek a = x ∧ s.afterRead a = s := by
  simp [State.peek, State.afterRead, hr, hx]

/-- A write touches memory and the record of I/O accesses only. -/
theorem State.store_eq (s : State) (a v : Word) :
    s.store a v = { s with mem := (s.store a v).mem, ioTrace := (s.store a v).ioTrace } := by
  unfold State.store; split <;> rfl

@[simp] theorem State.store_regs (s : State) (a v : Word) : (s.store a v).regs = s.regs := by
  rw [State.store_eq]
@[simp] theorem State.store_reg (s : State) (a v : Word) (n : RegNum) : (s.store a v).reg n = s.reg n :=
  State.reg_congr (by simp) n
@[simp] theorem State.store_pc (s : State) (a v : Word) : (s.store a v).pc = s.pc := by
  rw [State.store_eq]
@[simp] theorem State.store_sp (s : State) (a v : Word) : (s.store a v).sp = s.sp := by
  rw [State.store_eq]
@[simp] theorem State.store_psw (s : State) (a v : Word) : (s.store a v).psw = s.psw := by
  rw [State.store_eq]
@[simp] theorem State.store_ie (s : State) (a v : Word) : (s.store a v).ie = s.ie := by
  rw [State.store_eq]
@[simp] theorem State.store_halted (s : State) (a v : Word) : (s.store a v).halted = s.halted := by
  rw [State.store_eq]
@[simp] theorem State.store_ir (s : State) (a v : Word) : (s.store a v).ir = s.ir := by
  rw [State.store_eq]
@[simp] theorem State.store_micro (s : State) (a v : Word) : (s.store a v).micro = s.micro := by
  rw [State.store_eq]
@[simp] theorem State.store_cfg (s : State) (a v : Word) : (s.store a v).cfg = s.cfg := by
  rw [State.store_eq]
@[simp] theorem State.store_intInputs (s : State) (a v : Word) :
    (s.store a v).intInputs = s.intInputs := by rw [State.store_eq]
@[simp] theorem State.store_draws (s : State) (a v : Word) : (s.store a v).draws = s.draws := by
  rw [State.store_eq]

/-- What a write does to memory. -/
theorem State.store_mem (s : State) (a v : Word) :
    (s.store a v).mem = if isRam s.cfg a then Memory.write s.mem a.toNat v else s.mem := by
  unfold State.store; split <;> rfl

/-- What a write does to the record of I/O accesses. -/
theorem State.store_ioTrace (s : State) (a v : Word) :
    (s.store a v).ioTrace = if isRam s.cfg a then s.ioTrace else .write a v :: s.ioTrace := by
  unfold State.store; split <;> rfl

/-- A stored RAM word is the word read next (R62). -/
theorem State.read_store_self {s : State} {a v : Word} (hr : isRam s.cfg a = true) :
    Memory.read (s.store a v).mem a.toNat = some v := by
  rw [State.store_mem, if_pos hr, Memory.read_write_self]

/-- A write leaves every other address alone. -/
theorem State.read_store_ne (s : State) (a v : Word) {k : Nat} (h : k ≠ a.toNat) :
    Memory.read (s.store a v).mem k = Memory.read s.mem k := by
  rw [State.store_mem]; split
  · exact Memory.read_write_ne _ _ h
  · rfl

/-- The address is implemented RAM exactly when it is below RAM_WORDS (R60). -/
theorem isRam_iff (c : Config) (a : Word) : isRam c a = true ↔ a.toNat < c.ramWords := by
  simp [isRam]

/-- The address is I/O exactly when the module is there and it is at or above FF00H (R60). -/
theorem isIo_iff (c : Config) (a : Word) : isIo c a = true ↔ c.hasInt = true ∧ ioBase ≤ a.toNat := by
  simp [isIo]

/-- With RAM up to the I/O region and I/O present every address is accessible. -/
theorem accessible_of_full {c : Config} (h1 : c.ramWords = 0xFF00) (h2 : c.hasInt = true) (a : Word) :
    accessible c a = true := by
  rcases Nat.lt_or_ge a.toNat 0xFF00 with h | h
  · simp [accessible, isRam, h1, h]
  · simp [accessible, isIo, h2, ioBase, h]

end Sys2Proof.Machine
end

