-- ==== Sys2Proof/Laws/Micro.lean ====
section
/-! SUPPORT. The controller's tables: bits of a formed micro-address, and the conditional test. -/

namespace Sys2Proof.Machine

/-- A bit of NA with the bits of a mask replaced: the test's where the mask says so, else NA's (R287). -/
@[simp] theorem getElem_replaceBits (na mask test : BitVec 9) (k : Nat) (hk : k < 9) :
    (replaceBits na mask test)[k] = if mask[k] then test[k] else na[k] := by
  simp only [replaceBits, BitVec.getElem_or, BitVec.getElem_and, BitVec.getElem_not]
  cases mask[k] <;> simp

/-- The same for a bit named by any number. -/
theorem getLsbD_replaceBits (na mask test : BitVec 9) (k : Nat) :
    (replaceBits na mask test).getLsbD k = if mask.getLsbD k then test.getLsbD k else na.getLsbD k := by
  by_cases hk : k < 9
  · simp [BitVec.getLsbD_eq_getElem, hk]
  · simp [BitVec.getLsbD_of_ge _ _ (Nat.le_of_not_lt hk)]

/-- On the word of a conditional jump the test is its condition (R97, R202). -/
theorem conditionTest_eq {ir : Word} (h : ir.extractLsb' 9 7 = 0b0000001) (p : Psw) (n : Nat) :
    conditionTest ir p n = opcodeCondition ir p := by simp only [conditionTest, h, if_true]

end Sys2Proof.Machine
end

