-- ==== Sys2Proof/Laws/Ops.lean ====
section
/-! SUPPORT. The shared operations, once each: what they answer, and all they can do. -/

namespace Sys2Proof.Machine

@[simp] theorem andThen_next {α β : Type} (a : α) (k : α → Res β) : andThen (.next a) k = k a := rfl
@[simp] theorem andThen_fault {α β : Type} (f : Fault) (k : α → Res β) :
    andThen (.fault f : Res α) k = .fault f := rfl
@[simp] theorem andThen_refused {α β : Type} (r : Refusal) (k : α → Res β) :
    andThen (.refused r : Res α) k = .refused r := rfl

/-- A sequence answers next exactly when both parts do. -/
theorem andThen_eq_next {α β : Type} {o : Res α} {k : α → Res β} {b : β} :
    andThen o k = .next b ↔ ∃ a, o = .next a ∧ k a = .next b := by
  cases o <;> simp [andThen]

/-- A sequence faults exactly when its first part does, or its second part after it. -/
theorem andThen_eq_fault {α β : Type} {o : Res α} {k : α → Res β} {f : Fault} :
    andThen o k = .fault f ↔ o = .fault f ∨ ∃ a, o = .next a ∧ k a = .fault f := by
  cases o <;> simp [andThen]

/-- A sequence is refused exactly when its first part is, or its second part after it. -/
theorem andThen_eq_refused {α β : Type} {o : Res α} {k : α → Res β} {r : Refusal} :
    andThen o k = .refused r ↔ o = .refused r ∨ ∃ a, o = .next a ∧ k a = .refused r := by
  cases o <;> simp [andThen]

/-- A read of an accessible address answers (R60). -/
theorem memRead_ok {s : State} {a : Word} (h : accessible s.cfg a = true) :
    memRead a s = .next (s.peek a, s.afterRead a) := by simp [memRead, h]

/-- All a read can answer (R60). -/
theorem memRead_eq_next {s t : State} {a v : Word} :
    memRead a s = .next (v, t) ↔ accessible s.cfg a = true ∧ v = s.peek a ∧ t = s.afterRead a := by
  by_cases ha : accessible s.cfg a = true
  · simp only [memRead, ha, if_true, Host.Outcome.next.injEq, Prod.mk.injEq, true_and]
    exact and_congr eq_comm eq_comm
  · simp [memRead, ha]

/-- A write to an accessible address answers (R60). -/
theorem memWrite_ok {s : State} {a : Word} (v : Word) (h : accessible s.cfg a = true) :
    memWrite a v s = .next (s.store a v) := by simp [memWrite, h]

/-- All a write can answer (R60). -/
theorem memWrite_eq_next {s t : State} {a v : Word} :
    memWrite a v s = .next t ↔ accessible s.cfg a = true ∧ t = s.store a v := by
  by_cases ha : accessible s.cfg a = true
  · simp only [memWrite, ha, if_true, Host.Outcome.next.injEq, true_and]
    exact eq_comm
  · simp [memWrite, ha]

/-- All a fetch can answer (R111). -/
theorem fetchWord_eq_next {s t : State} {w : Word} :
    fetchWord s = .next (w, t) ↔
      accessible s.cfg s.pc = true ∧ w = s.peek s.pc ∧ t = { s.afterRead s.pc with pc := s.pc + 1 } := by
  unfold fetchWord
  rw [andThen_eq_next]
  constructor
  · rintro ⟨⟨v, u⟩, h, h'⟩
    obtain ⟨ha, rfl, rfl⟩ := memRead_eq_next.mp h
    simp only [Host.Outcome.next.injEq, Prod.mk.injEq] at h'
    obtain ⟨rfl, rfl⟩ := h'
    exact ⟨ha, rfl, by rw [State.afterRead_pc]⟩
  · rintro ⟨ha, rfl, rfl⟩
    exact ⟨_, memRead_ok ha, by rw [State.afterRead_pc]⟩

/-- All a push can answer (R140). -/
theorem push_eq_next {s t : State} {v : Word} :
    push v s = .next t ↔
      accessible s.cfg (s.sp - 1) = true ∧ t = ({ s with sp := s.sp - 1 } : State).store (s.sp - 1) v := by
  unfold push; rw [memWrite_eq_next]

/-- All a pop can answer (R140). -/
theorem pop_eq_next {s t : State} {v : Word} :
    pop s = .next (v, t) ↔
      accessible s.cfg s.sp = true ∧ v = s.peek s.sp ∧ t = { s.afterRead s.sp with sp := s.sp + 1 } := by
  unfold pop
  rw [andThen_eq_next]
  constructor
  · rintro ⟨⟨v, u⟩, h, h'⟩
    obtain ⟨ha, rfl, rfl⟩ := memRead_eq_next.mp h
    simp only [Host.Outcome.next.injEq, Prod.mk.injEq] at h'
    obtain ⟨rfl, rfl⟩ := h'
    exact ⟨ha, rfl, by rw [State.afterRead_sp]⟩
  · rintro ⟨ha, rfl, rfl⟩
    exact ⟨_, memRead_ok ha, by rw [State.afterRead_sp]⟩

/-- All that fetching and decoding an instruction can answer (R110). -/
theorem fetchInstr_eq_next {s t : State} {i : Instr} :
    fetchInstr s = .next (i, t) ↔
      ∃ w u, fetchWord s = .next (w, u) ∧ decodeWord s.cfg w = .ok i ∧ t = { u with ir := w } := by
  unfold fetchInstr
  rw [andThen_eq_next]
  constructor
  · rintro ⟨⟨w, u⟩, h, h'⟩
    refine ⟨w, u, h, ?_⟩
    cases hd : decodeWord s.cfg w with
    | ok j =>
      simp only [hd, Host.Outcome.next.injEq, Prod.mk.injEq] at h'
      exact ⟨by rw [h'.1], h'.2.symm⟩
    | error e => cases e <;> simp [hd] at h'
  · rintro ⟨w, u, h, hd, rfl⟩
    exact ⟨(w, u), h, by simp [hd]⟩

/-! The end of a step leaves everything but the hidden registers and the count of draws (log 17). -/

@[simp] theorem endOfStep_regs (s : State) : (endOfStep s).regs = s.regs := rfl
@[simp] theorem endOfStep_pc (s : State) : (endOfStep s).pc = s.pc := rfl
@[simp] theorem endOfStep_sp (s : State) : (endOfStep s).sp = s.sp := rfl
@[simp] theorem endOfStep_psw (s : State) : (endOfStep s).psw = s.psw := rfl
@[simp] theorem endOfStep_ie (s : State) : (endOfStep s).ie = s.ie := rfl
@[simp] theorem endOfStep_halted (s : State) : (endOfStep s).halted = s.halted := rfl
@[simp] theorem endOfStep_mem (s : State) : (endOfStep s).mem = s.mem := rfl
@[simp] theorem endOfStep_ir (s : State) : (endOfStep s).ir = s.ir := rfl
@[simp] theorem endOfStep_cfg (s : State) : (endOfStep s).cfg = s.cfg := rfl
@[simp] theorem endOfStep_intInputs (s : State) : (endOfStep s).intInputs = s.intInputs := rfl
@[simp] theorem endOfStep_ioTrace (s : State) : (endOfStep s).ioTrace = s.ioTrace := rfl

end Sys2Proof.Machine
end

