-- ==== Sys2Proof/Laws/Operands.lean ====
section
/-! SUPPORT. Operands: everything resolving, reading and writing one can do, and the operand phases of
the two formats. -/

namespace Sys2Proof.Machine

/-- Resolving a destination is resolving it, once immediate mode is excluded (R96). -/
theorem resolveDst_eq {o : Operand} (h : o ≠ .imm) (s : State) : resolveDst o s = resolve o s := by
  cases o <;> first | rfl | exact absurd rfl h

/-- What a destination that resolves can be. -/
theorem resolveDst_eq_next {o : Operand} {s t : State} {l : Loc} :
    resolveDst o s = .next (l, t) ↔ o ≠ .imm ∧ resolve o s = .next (l, t) := by
  cases o <;> simp [resolveDst]

/-- Everything that resolving an operand can change: PC moves past the operand's constant, `(Rn)+` adds
1 to Rn, and reads leave their trace; nothing is stored (R111, R114). -/
structure ResolveFrame (o : Operand) (s t : State) : Prop where
  pc : t.pc = s.pc + BitVec.ofNat 16 o.constWords
  reg : ∀ n, t.reg n = if o = .autoInc n then s.reg n + 1 else s.reg n
  sp : t.sp = s.sp
  psw : t.psw = s.psw
  ie : t.ie = s.ie
  halted : t.halted = s.halted
  mem : t.mem = s.mem
  ir : t.ir = s.ir
  micro : t.micro = s.micro
  cfg : t.cfg = s.cfg
  intInputs : t.intInputs = s.intInputs
  io : ∃ new, t.ioTrace = new ++ s.ioTrace ∧ ∀ a v, IoEvent.write a v ∉ new

/-- A read adds no write to the record of I/O accesses. -/
theorem afterRead_io (s : State) (a : Word) :
    ∃ new, (s.afterRead a).ioTrace = new ++ s.ioTrace ∧ ∀ b v, IoEvent.write b v ∉ new := by
  rw [State.afterRead_ioTrace]; split
  · exact ⟨[], rfl, by simp⟩
  · exact ⟨[_], rfl, by simp⟩

/-- Two reads in a row add no write. -/
theorem io_trans {s t u : State} (h1 : ∃ new, t.ioTrace = new ++ s.ioTrace ∧ ∀ b v, IoEvent.write b v ∉ new)
    (h2 : ∃ new, u.ioTrace = new ++ t.ioTrace ∧ ∀ b v, IoEvent.write b v ∉ new) :
    ∃ new, u.ioTrace = new ++ s.ioTrace ∧ ∀ b v, IoEvent.write b v ∉ new := by
  obtain ⟨n1, e1, w1⟩ := h1
  obtain ⟨n2, e2, w2⟩ := h2
  refine ⟨n2 ++ n1, by rw [e2, e1, List.append_assoc], fun b v h => ?_⟩
  rcases List.mem_append.mp h with h | h
  · exact w2 b v h
  · exact w1 b v h

/-- The frame of resolving. -/
theorem resolve_frame {o : Operand} {s t : State} {l : Loc} (h : resolve o s = .next (l, t)) :
    ResolveFrame o s t := by
  have none : ∃ new, s.ioTrace = new ++ s.ioTrace ∧ ∀ b v, IoEvent.write b v ∉ new := ⟨[], rfl, by simp⟩
  have fetched : ∀ {o' : Operand} {w : Word} {u : State}, o'.constWords = 1 → (∀ n, o' ≠ .autoInc n) →
      fetchWord s = .next (w, u) → ResolveFrame o' s u := by
    intro o' w u hc hn hu
    obtain ⟨-, -, rfl⟩ := fetchWord_eq_next.mp hu
    constructor <;> simp [hc]
    · intro n; rw [if_neg (hn n)]; exact State.reg_congr (by simp) n
    · exact afterRead_io s s.pc
  cases o with
  | reg n =>
    simp only [resolve, Host.Outcome.next.injEq, Prod.mk.injEq] at h
    obtain ⟨-, rfl⟩ := h
    constructor <;> simp [Operand.constWords, Operand.hasConst]
  | ind n =>
    simp only [resolve, Host.Outcome.next.injEq, Prod.mk.injEq] at h
    obtain ⟨-, rfl⟩ := h
    constructor <;> simp [Operand.constWords, Operand.hasConst]
  | autoInc n =>
    simp only [resolve, Host.Outcome.next.injEq, Prod.mk.injEq] at h
    obtain ⟨-, rfl⟩ := h
    constructor <;> first | simp [Operand.constWords, Operand.hasConst]; done | exact none | skip
    intro m; rw [State.reg_setReg]; by_cases hm : n = m <;> simp [hm]
  | imm =>
    obtain ⟨⟨w, u⟩, hu, h⟩ := andThen_eq_next.mp h
    simp only [Host.Outcome.next.injEq, Prod.mk.injEq] at h
    obtain ⟨-, rfl⟩ := h
    exact fetched rfl (by simp) hu
  | direct =>
    obtain ⟨⟨w, u⟩, hu, h⟩ := andThen_eq_next.mp h
    simp only [Host.Outcome.next.injEq, Prod.mk.injEq] at h
    obtain ⟨-, rfl⟩ := h
    exact fetched rfl (by simp) hu
  | indirect =>
    obtain ⟨⟨w, u⟩, hu, h⟩ := andThen_eq_next.mp h
    obtain ⟨⟨p, u'⟩, hp, h⟩ := andThen_eq_next.mp h
    simp only [Host.Outcome.next.injEq, Prod.mk.injEq] at h
    obtain ⟨-, rfl⟩ := h
    have f : ResolveFrame .indirect s u := fetched rfl (by simp) hu
    obtain ⟨-, -, rfl⟩ := memRead_eq_next.mp hp
    constructor <;> first | simp [f.pc, f.sp, f.psw, f.ie, f.halted, f.mem, f.ir, f.micro, f.cfg, f.intInputs]; done | skip
    · intro n; rw [State.afterRead_reg, f.reg]
    · exact io_trans f.io (afterRead_io u w)
  | indexed n =>
    obtain ⟨⟨w, u⟩, hu, h⟩ := andThen_eq_next.mp h
    simp only [Host.Outcome.next.injEq, Prod.mk.injEq] at h
    obtain ⟨-, rfl⟩ := h
    exact fetched rfl (by simp) hu
  | relative =>
    obtain ⟨⟨w, u⟩, hu, h⟩ := andThen_eq_next.mp h
    simp only [Host.Outcome.next.injEq, Prod.mk.injEq] at h
    obtain ⟨-, rfl⟩ := h
    exact fetched rfl (by simp) hu

/-- Register mode is the one mode that resolves to a register (R115). -/
theorem resolve_reg {o : Operand} {s t : State} {n : RegNum} (h : resolve o s = .next (.reg n, t)) :
    o = .reg n := by
  cases o <;> simp only [resolve, andThen_eq_next, Host.Outcome.next.injEq, Prod.mk.injEq] at h <;>
    aesop

/-- Immediate mode is the one mode that resolves to a value (R118). -/
theorem resolve_imm {o : Operand} {s t : State} {v : Word} (h : resolve o s = .next (.imm v, t)) :
    o = .imm := by
  cases o <;> simp only [resolve, andThen_eq_next, Host.Outcome.next.injEq, Prod.mk.injEq] at h <;>
    aesop

/-- A destination never resolves to an immediate (R96). -/
theorem resolveDst_not_imm {o : Operand} {s t : State} {v : Word} :
    resolveDst o s ≠ .next (.imm v, t) := fun h =>
  (resolveDst_eq_next.mp h).1 (resolve_imm (resolveDst_eq_next.mp h).2)

/-- All a read of a location can answer (R123). -/
theorem readLoc_eq_next {l : Loc} {s t : State} {v : Word} (h : readLoc l s = .next (v, t)) :
    v = s.valueAt l ∧ t = s.afterLoc l := by
  cases l with
  | reg n => simp only [readLoc, Host.Outcome.next.injEq, Prod.mk.injEq] at h; exact ⟨h.1.symm, h.2.symm⟩
  | mem a => exact (memRead_eq_next.mp h).2
  | imm v => simp only [readLoc, Host.Outcome.next.injEq, Prod.mk.injEq] at h; exact ⟨h.1.symm, h.2.symm⟩

/-- A usable location answers its value (R123). -/
theorem readLoc_ok {l : Loc} {s : State} (h : l.Usable s.cfg) :
    readLoc l s = .next (s.valueAt l, s.afterLoc l) := by
  cases l with
  | reg n => rfl
  | mem a => exact memRead_ok h
  | imm v => exact absurd h (by simp [Loc.Usable])

/-- All a write of a location can answer (R124). -/
theorem writeLoc_eq_next {l : Loc} {s t : State} {v : Word} (h : writeLoc l v s = .next t) :
    t = s.put l v := by
  cases l with
  | reg n => simp only [writeLoc, Host.Outcome.next.injEq] at h; exact h.symm
  | mem a => exact (memWrite_eq_next.mp h).2
  | imm v => simp [writeLoc] at h

/-- A usable location is written (R124). -/
theorem writeLoc_ok {l : Loc} {s : State} (v : Word) (h : l.Usable s.cfg) :
    writeLoc l v s = .next (s.put l v) := by
  cases l with
  | reg n => rfl
  | mem a => exact memWrite_ok v h
  | imm v => exact absurd h (by simp [Loc.Usable])

@[simp] theorem State.afterLoc_cfg (s : State) (l : Loc) : (s.afterLoc l).cfg = s.cfg := by
  cases l <;> simp [State.afterLoc]
@[simp] theorem State.afterLoc_regs (s : State) (l : Loc) : (s.afterLoc l).regs = s.regs := by
  cases l <;> simp [State.afterLoc]
@[simp] theorem State.afterLoc_pc (s : State) (l : Loc) : (s.afterLoc l).pc = s.pc := by
  cases l <;> simp [State.afterLoc]
@[simp] theorem State.afterLoc_sp (s : State) (l : Loc) : (s.afterLoc l).sp = s.sp := by
  cases l <;> simp [State.afterLoc]
@[simp] theorem State.afterLoc_psw (s : State) (l : Loc) : (s.afterLoc l).psw = s.psw := by
  cases l <;> simp [State.afterLoc]
@[simp] theorem State.afterLoc_ie (s : State) (l : Loc) : (s.afterLoc l).ie = s.ie := by
  cases l <;> simp [State.afterLoc]
@[simp] theorem State.afterLoc_halted (s : State) (l : Loc) : (s.afterLoc l).halted = s.halted := by
  cases l <;> simp [State.afterLoc]
@[simp] theorem State.afterLoc_mem (s : State) (l : Loc) : (s.afterLoc l).mem = s.mem := by
  cases l <;> simp [State.afterLoc]
@[simp] theorem State.afterLoc_ir (s : State) (l : Loc) : (s.afterLoc l).ir = s.ir := by
  cases l <;> simp [State.afterLoc]
@[simp] theorem State.afterLoc_micro (s : State) (l : Loc) : (s.afterLoc l).micro = s.micro := by
  cases l <;> simp [State.afterLoc]
@[simp] theorem State.afterLoc_intInputs (s : State) (l : Loc) :
    (s.afterLoc l).intInputs = s.intInputs := by
  cases l <;> simp [State.afterLoc]

@[simp] theorem State.put_cfg (s : State) (l : Loc) (v : Word) : (s.put l v).cfg = s.cfg := by
  cases l <;> simp [State.put]
@[simp] theorem State.put_pc (s : State) (l : Loc) (v : Word) : (s.put l v).pc = s.pc := by
  cases l <;> simp [State.put]
@[simp] theorem State.put_sp (s : State) (l : Loc) (v : Word) : (s.put l v).sp = s.sp := by
  cases l <;> simp [State.put]
@[simp] theorem State.put_psw (s : State) (l : Loc) (v : Word) : (s.put l v).psw = s.psw := by
  cases l <;> simp [State.put]
@[simp] theorem State.put_ie (s : State) (l : Loc) (v : Word) : (s.put l v).ie = s.ie := by
  cases l <;> simp [State.put]
@[simp] theorem State.put_halted (s : State) (l : Loc) (v : Word) : (s.put l v).halted = s.halted := by
  cases l <;> simp [State.put]
@[simp] theorem State.put_ir (s : State) (l : Loc) (v : Word) : (s.put l v).ir = s.ir := by
  cases l <;> simp [State.put]
@[simp] theorem State.put_micro (s : State) (l : Loc) (v : Word) : (s.put l v).micro = s.micro := by
  cases l <;> simp [State.put]
@[simp] theorem State.put_intInputs (s : State) (l : Loc) (v : Word) :
    (s.put l v).intInputs = s.intInputs := by
  cases l <;> simp [State.put]

/-- All the operand phases of format D can answer (R110, R112). -/
theorem withOperands_eq_next {src dst : Operand} {s t : State} {k : Word → Loc → State → Res State}
    (h : withOperands src dst s k = .next t) :
    ∃ v s₁ l s₂, readSource src s = .next (v, s₁) ∧ resolveDst dst s₁ = .next (l, s₂) ∧
      k v l s₂ = .next t := by
  obtain ⟨⟨v, s₁⟩, h1, h⟩ := andThen_eq_next.mp h
  obtain ⟨⟨l, s₂⟩, h2, h⟩ := andThen_eq_next.mp h
  exact ⟨v, s₁, l, s₂, h1, h2, h⟩

/-- All the operand phase of format S can answer (R110). -/
theorem withDst_eq_next {dst : Operand} {s t : State} {k : Loc → State → Res State}
    (h : withDst dst s k = .next t) :
    ∃ l s₁, resolveDst dst s = .next (l, s₁) ∧ k l s₁ = .next t := by
  obtain ⟨⟨l, s₁⟩, h1, h⟩ := andThen_eq_next.mp h
  exact ⟨l, s₁, h1, h⟩

/-- A source operand is a resolve and a read (R112). -/
theorem readSource_eq_next {o : Operand} {s t : State} {v : Word} (h : readSource o s = .next (v, t)) :
    ∃ l u, resolve o s = .next (l, u) ∧ v = u.valueAt l ∧ t = u.afterLoc l := by
  obtain ⟨⟨l, u⟩, h1, h⟩ := andThen_eq_next.mp h
  exact ⟨l, u, h1, readLoc_eq_next h⟩

/-- A read of a location adds no write to the record of I/O accesses. -/
theorem afterLoc_io (s : State) (l : Loc) :
    ∃ new, (s.afterLoc l).ioTrace = new ++ s.ioTrace ∧ ∀ b v, IoEvent.write b v ∉ new := by
  cases l with
  | reg n => exact ⟨[], rfl, by simp⟩
  | mem a => exact afterRead_io s a
  | imm v => exact ⟨[], rfl, by simp⟩

/-- Reading a location after resolving an operand keeps the frame of resolving. -/
theorem ResolveFrame.afterLoc {o : Operand} {s u : State} (f : ResolveFrame o s u) (l : Loc) :
    ResolveFrame o s (u.afterLoc l) where
  pc := by rw [State.afterLoc_pc, f.pc]
  reg n := by rw [State.reg_congr (State.afterLoc_regs u l) n, f.reg]
  sp := by rw [State.afterLoc_sp, f.sp]
  psw := by rw [State.afterLoc_psw, f.psw]
  ie := by rw [State.afterLoc_ie, f.ie]
  halted := by rw [State.afterLoc_halted, f.halted]
  mem := by rw [State.afterLoc_mem, f.mem]
  ir := by rw [State.afterLoc_ir, f.ir]
  micro := by rw [State.afterLoc_micro, f.micro]
  cfg := by rw [State.afterLoc_cfg, f.cfg]
  intInputs := by rw [State.afterLoc_intInputs, f.intInputs]
  io := io_trans f.io (afterLoc_io u l)

/-- The frame of a source operand (R112). -/
theorem readSource_frame {o : Operand} {s t : State} {v : Word} (h : readSource o s = .next (v, t)) :
    ResolveFrame o s t := by
  obtain ⟨l, u, h1, -, rfl⟩ := readSource_eq_next h
  exact (resolve_frame h1).afterLoc l

/-- Format D runs its own rule when the operand phases succeed. -/
theorem withOperands_ok {src dst : Operand} {s t : State} {v : Word} {l : Loc}
    (h : OperandsReady src dst s v l t) (k : Word → Loc → State → Res State) :
    withOperands src dst s k = k v l t ∧ l.Usable t.cfg := by
  obtain ⟨s₁, h1, h2, h3⟩ := h
  have e1 : s₁.cfg = s.cfg := (readSource_frame h1).cfg
  have e2 : t.cfg = s₁.cfg := (resolve_frame (resolveDst_eq_next.mp h2).2).cfg
  exact ⟨by simp [withOperands, h1, h2], by rw [e2, e1]; exact h3⟩

/-- Format S runs its own rule when the operand phase succeeds. -/
theorem withDst_ok {dst : Operand} {s t : State} {l : Loc}
    (h : OperandReady dst s l t) (k : Loc → State → Res State) :
    withDst dst s k = k l t ∧ l.Usable t.cfg := by
  obtain ⟨h2, h3⟩ := h
  have e2 : t.cfg = s.cfg := (resolve_frame (resolveDst_eq_next.mp h2).2).cfg
  exact ⟨by simp [withDst, h2], by rw [e2]; exact h3⟩

/-- An update reads the location, computes, and writes the same location (R113). -/
theorem updateLoc_ok {l : Loc} {s : State} (h : l.Usable s.cfg) (f : Word → State → Word × State)
    (hf : ∀ v u, (f v u).2.cfg = u.cfg) :
    updateLoc l s f =
      .next ((f (s.valueAt l) (s.afterLoc l)).2.put l (f (s.valueAt l) (s.afterLoc l)).1) := by
  simp only [updateLoc, readLoc_ok h, andThen_next]
  exact writeLoc_ok _ (by rw [hf, State.afterLoc_cfg]; exact h)

/-- All an update can answer. -/
theorem updateLoc_eq_next {l : Loc} {s t : State} {f : Word → State → Word × State}
    (h : updateLoc l s f = .next t) :
    t = (f (s.valueAt l) (s.afterLoc l)).2.put l (f (s.valueAt l) (s.afterLoc l)).1 := by
  obtain ⟨⟨v, u⟩, h1, h⟩ := andThen_eq_next.mp h
  obtain ⟨rfl, rfl⟩ := readLoc_eq_next h1
  exact writeLoc_eq_next h

/-- An observation reads the location and keeps the flags (R157, R161). -/
theorem observeLoc_ok {l : Loc} {s : State} (h : l.Usable s.cfg) (f : Word → State → Word × State) :
    observeLoc l s f = .next (f (s.valueAt l) (s.afterLoc l)).2 := by
  simp only [observeLoc, readLoc_ok h, andThen_next]

/-- All an observation can answer. -/
theorem observeLoc_eq_next {l : Loc} {s t : State} {f : Word → State → Word × State}
    (h : observeLoc l s f = .next t) : t = (f (s.valueAt l) (s.afterLoc l)).2 := by
  obtain ⟨⟨v, u⟩, h1, h⟩ := andThen_eq_next.mp h
  obtain ⟨rfl, rfl⟩ := readLoc_eq_next h1
  simp only [Host.Outcome.next.injEq] at h
  exact h.symm

end Sys2Proof.Machine
end

