-- ==== Sys2Proof/Laws/PerInstr.lean ====
section
/-! SUPPORT. Per-instruction laws. Family Classified: the word an instruction encodes to has the
instruction's own format, opcode and operands in its fields (spec R82~R86, R101). -/

namespace Sys2Proof.Laws.Classified

/-- The opcode map finds the instruction in its own word. -/
def Statement (i : Instr) : Prop :=
  wordFormat (encodeWord i) = i.format ∧ instrOfWord (encodeWord i) = some i

theorem mov (src dst : Operand) : Statement (.mov src dst) := double_word _ (by decide) rfl src dst
theorem add (src dst : Operand) : Statement (.add src dst) := double_word _ (by decide) rfl src dst
theorem addc (src dst : Operand) : Statement (.addc src dst) := double_word _ (by decide) rfl src dst
theorem sub (src dst : Operand) : Statement (.sub src dst) := double_word _ (by decide) rfl src dst
theorem subb (src dst : Operand) : Statement (.subb src dst) := double_word _ (by decide) rfl src dst
theorem and (src dst : Operand) : Statement (.and src dst) := double_word _ (by decide) rfl src dst
theorem or (src dst : Operand) : Statement (.or src dst) := double_word _ (by decide) rfl src dst
theorem xor (src dst : Operand) : Statement (.xor src dst) := double_word _ (by decide) rfl src dst
theorem cmp (src dst : Operand) : Statement (.cmp src dst) := double_word _ (by decide) rfl src dst
theorem test (src dst : Operand) : Statement (.test src dst) := double_word _ (by decide) rfl src dst
theorem sar (dst : Operand) : Statement (.sar dst) := single_word _ (by decide) rfl dst
theorem shl (dst : Operand) : Statement (.shl dst) := single_word _ (by decide) rfl dst
theorem shr (dst : Operand) : Statement (.shr dst) := single_word _ (by decide) rfl dst
theorem rol (dst : Operand) : Statement (.rol dst) := single_word _ (by decide) rfl dst
theorem ror (dst : Operand) : Statement (.ror dst) := single_word _ (by decide) rfl dst
theorem rcl (dst : Operand) : Statement (.rcl dst) := single_word _ (by decide) rfl dst
theorem rcr (dst : Operand) : Statement (.rcr dst) := single_word _ (by decide) rfl dst
theorem jc (dst : Operand) : Statement (.jc dst) := single_word _ (by decide) rfl dst
theorem jnc (dst : Operand) : Statement (.jnc dst) := single_word _ (by decide) rfl dst
theorem jo (dst : Operand) : Statement (.jo dst) := single_word _ (by decide) rfl dst
theorem jno (dst : Operand) : Statement (.jno dst) := single_word _ (by decide) rfl dst
theorem jz (dst : Operand) : Statement (.jz dst) := single_word _ (by decide) rfl dst
theorem jnz (dst : Operand) : Statement (.jnz dst) := single_word _ (by decide) rfl dst
theorem js (dst : Operand) : Statement (.js dst) := single_word _ (by decide) rfl dst
theorem jns (dst : Operand) : Statement (.jns dst) := single_word _ (by decide) rfl dst
theorem jmp (dst : Operand) : Statement (.jmp dst) := single_word _ (by decide) rfl dst
theorem inc (dst : Operand) : Statement (.inc dst) := single_word _ (by decide) rfl dst
theorem dec (dst : Operand) : Statement (.dec dst) := single_word _ (by decide) rfl dst
theorem not (dst : Operand) : Statement (.not dst) := single_word _ (by decide) rfl dst
theorem push (dst : Operand) : Statement (.push dst) := single_word _ (by decide) rfl dst
theorem pop (dst : Operand) : Statement (.pop dst) := single_word _ (by decide) rfl dst
theorem call (dst : Operand) : Statement (.call dst) := single_word _ (by decide) rfl dst
theorem halt : Statement .halt := ⟨by decide, by decide⟩
theorem nop : Statement .nop := ⟨by decide, by decide⟩
theorem ret : Statement .ret := ⟨by decide, by decide⟩
theorem reti : Statement .reti := ⟨by decide, by decide⟩
theorem ei : Statement .ei := ⟨by decide, by decide⟩
theorem di : Statement .di := ⟨by decide, by decide⟩

end Sys2Proof.Laws.Classified
end

