-- ==== Sys2Proof/Tests/Slice0.lean ====
section
/-! SUPPORT. The model's own tests. Expected values come from spec/95_test_vectors.md (the vector is
named) or from the encoding tables of spec/30_encoding.md. Then the witnesses: for every obligation
with hypotheses, a state and operands that meet them. -/

namespace Sys2Proof.Tests

open Sys2Proof.Machine

/-! ## Well-formedness -/

/-- Immediate destinations are no encodings (R96), CMP, TEST and the jumps among them. -/
theorem test_immediate_destination_ill_formed :
    (Instr.mov (.reg 0) .imm).WellFormed Config.full = false ∧
    (Instr.cmp (.reg 0) .imm).WellFormed Config.full = false ∧
    (Instr.inc .imm).WellFormed Config.full = false ∧
    (Instr.jmp .imm).WellFormed Config.full = false := by decide

/-- Instructions of an absent module are no encodings (R98). -/
theorem test_absent_module_ill_formed :
    (Instr.shr (.reg 0)).WellFormed { Config.full with hasExt := false } = false ∧
    Instr.ei.WellFormed { Config.full with hasInt := false } = false ∧
    (Instr.shr (.reg 0)).WellFormed Config.full = true ∧ Instr.ei.WellFormed Config.full = true := by
  decide

/-- A whole instruction has exactly the constants its modes call for (R89). -/
theorem test_wrong_constant_count_ill_formed :
    Code.WellFormed Config.full ⟨.mov .imm .direct, [0xAAAA]⟩ = false ∧
    Code.WellFormed Config.full ⟨.mov .imm .direct, [0xAAAA, 0x0120, 0]⟩ = false ∧
    Code.WellFormed Config.full ⟨.nop, [0]⟩ = false ∧
    Code.WellFormed Config.full ⟨.mov .imm .direct, [0xAAAA, 0x0120]⟩ = true := by decide

/-! ## Decoding, words written out from R82~R94 -/

theorem test_decode_double :
    decodeWord Config.full 0b0001_000_010_000_101 = .ok (.mov (.reg 2) (.reg 5)) ∧
    decodeWord Config.full 0b0010_011_000_010_001 = .ok (.add .imm (.autoInc 1)) ∧
    decodeWord Config.full 0b0011_100_000_000_001 = .ok (.addc .direct (.reg 1)) ∧
    decodeWord Config.full 0b0100_101_000_001_110 = .ok (.sub .indirect (.ind 6)) ∧
    decodeWord Config.full 0b0101_110_011_100_000 = .ok (.subb (.indexed 3) .direct) ∧
    decodeWord Config.full 0b0110_111_000_101_000 = .ok (.and .relative .indirect) ∧
    decodeWord Config.full 0b0111_001_100_110_111 = .ok (.or (.ind 4) (.indexed 7)) ∧
    decodeWord Config.full 0b1000_010_101_111_000 = .ok (.xor (.autoInc 5) .relative) ∧
    decodeWord Config.full 0b1001_011_000_010_010 = .ok (.cmp .imm (.autoInc 2)) ∧
    decodeWord Config.full 0b1010_011_000_000_000 = .ok (.test .imm (.reg 0)) := by decide

theorem test_decode_shift :
    decodeWord Config.full 0b0000_000001_000_010 = .ok (.sar (.reg 2)) ∧
    decodeWord Config.full 0b0000_000010_010_001 = .ok (.shl (.autoInc 1)) ∧
    decodeWord Config.full 0b0000_000011_001_011 = .ok (.shr (.ind 3)) ∧
    decodeWord Config.full 0b0000_000100_100_000 = .ok (.rol .direct) ∧
    decodeWord Config.full 0b0000_000101_101_000 = .ok (.ror .indirect) ∧
    decodeWord Config.full 0b0000_000110_110_100 = .ok (.rcl (.indexed 4)) ∧
    decodeWord Config.full 0b0000_000111_111_000 = .ok (.rcr .relative) := by decide

theorem test_decode_jump :
    decodeWord Config.full 0b0000_001000_100_000 = .ok (.jc .direct) ∧
    decodeWord Config.full 0b0000_001001_001_001 = .ok (.jnc (.ind 1)) ∧
    decodeWord Config.full 0b0000_001010_100_000 = .ok (.jo .direct) ∧
    decodeWord Config.full 0b0000_001011_101_000 = .ok (.jno .indirect) ∧
    decodeWord Config.full 0b0000_001100_010_001 = .ok (.jz (.autoInc 1)) ∧
    decodeWord Config.full 0b0000_001101_111_000 = .ok (.jnz .relative) ∧
    decodeWord Config.full 0b0000_001110_100_000 = .ok (.js .direct) ∧
    decodeWord Config.full 0b0000_001111_110_010 = .ok (.jns (.indexed 2)) ∧
    decodeWord Config.full 0b0000_010000_110_010 = .ok (.jmp (.indexed 2)) := by decide

theorem test_decode_single :
    decodeWord Config.full 0b0000_010001_000_001 = .ok (.inc (.reg 1)) ∧
    decodeWord Config.full 0b0000_010010_010_111 = .ok (.dec (.autoInc 7)) ∧
    decodeWord Config.full 0b0000_010011_001_001 = .ok (.not (.ind 1)) ∧
    decodeWord Config.full 0b0000_011000_100_000 = .ok (.push .direct) ∧
    decodeWord Config.full 0b0000_011001_001_011 = .ok (.pop (.ind 3)) ∧
    decodeWord Config.full 0b0000_011010_001_011 = .ok (.call (.ind 3)) := by decide

theorem test_decode_zero :
    decodeWord Config.full 0b0000000000_000000 = .ok .halt ∧
    decodeWord Config.full 0b0000000000_000001 = .ok .nop ∧
    decodeWord Config.full 0b0000000000_000010 = .ok .ret ∧
    decodeWord Config.full 0b0000000000_000011 = .ok .reti ∧
    decodeWord Config.full 0b0000000000_000100 = .ok .ei ∧
    decodeWord Config.full 0b0000000000_000101 = .ok .di := by decide

/-- 95_test_vectors.md section 2.1, "Decoding must refuse": the rows that R95 and R96 refuse. -/
theorem test_decode_refuses :
    decodeWord Config.full 0xB000 = .error .reservedEncoding ∧
    decodeWord Config.full 0xF123 = .error .reservedEncoding ∧
    decodeWord Config.full 0x0500 = .error .reservedEncoding ∧
    decodeWord Config.full 0x05C0 = .error .reservedEncoding ∧
    decodeWord Config.full 0x06C0 = .error .reservedEncoding ∧
    decodeWord Config.full 0x0FC0 = .error .reservedEncoding ∧
    decodeWord Config.full 0x0006 = .error .reservedEncoding ∧
    decodeWord Config.full 0x003F = .error .reservedEncoding ∧
    decodeWord Config.full 0x1018 = .error .immediateDestination ∧
    decodeWord Config.full 0x0458 = .error .immediateDestination ∧
    decodeWord Config.full 0x0418 = .error .immediateDestination := by decide

/-- The register field of a mode without a register is ignored (R91; D7): 1641 decodes like 1601. -/
theorem test_decode_ignores_unused_register :
    decodeWord Config.full 0x1641 = decodeWord Config.full 0x1601 ∧
    decode Config.full [0x163F, 0x0001, 0x0002, 0x0000] =
      .ok (⟨.mov .imm .relative, [0x0001, 0x0002]⟩, [0x0000]) ∧
    decode Config.full [0x163F, 0x0001] = .error .truncated := by decide

/-- 95_test_vectors.md section 2.1: the source's constant is the second word (D3). -/
theorem test_encode_words :
    encode ⟨.mov .imm .direct, [0xAAAA, 0x0120]⟩ = [0x1620, 0xAAAA, 0x0120] ∧
    encode ⟨.mov .relative (.reg 0), [0x0001]⟩ = [0x1E00, 0x0001] ∧
    encode ⟨.jmp .relative, [0xFFFE]⟩ = [0x0438, 0xFFFE] ∧
    encode ⟨.call (.ind 3), []⟩ = [0x068B] := by decide

/-! ## One step -/

/-- The reset state with the words at 0030H and the data at their addresses. -/
def program (words : List Word) (data : List (Word × Word)) : State :=
  { State.reset with
    mem := loadWords (data.foldl (fun m e => Memory.write m e.1.toNat e.2) []) 0x0030 words }

/-- A state with R0, R1 and the flags CF OF SF ZF set. -/
def withRegs (s : State) (r0 r1 : Word) (cf of sf zf : Bool) : State :=
  { (s.setReg 0 r0).setReg 1 r1 with psw := { cf := cf, of := of, sf := sf, zf := zf } }

/-- One step gives a next state of which `p` holds. -/
def stepsTo (s : State) (p : State → Bool) : Bool :=
  match step s with
  | .next t => p t
  | .fault _ => false
  | .refused _ => false

/-- One step is refused for the reason. -/
def stepRefused (s : State) (r : Refusal) : Bool :=
  match step s with
  | .next _ => false
  | .fault _ => false
  | .refused q => decide (q = r)

/-- A register and the four flags. -/
def regFlags (t : State) (n : RegNum) (v : Word) (cf of sf zf : Bool) : Bool :=
  t.reg n == v && decide (t.psw = { cf := cf, of := of, sf := sf, zf := zf })

/-- The word stored at an address. -/
def stored (t : State) (a : Nat) (v : Word) : Bool := decide (Memory.read t.mem a = some v)

/-- T14: MOV writes no flag. -/
theorem test_mov_writes_no_flag :
    stepsTo (withRegs (program [0x1600, 0x0000] []) 7 7 true true true false) fun t =>
      regFlags t 0 0 true true true false && t.pc == 0x0032 := by decide

/-- T13: the loaded word overwrites the incremented register. -/
theorem test_mov_autoinc_same_register :
    stepsTo ((program [0x1441] [(0x0100, 0x1234)]).setReg 1 0x0100) fun t => t.reg 1 == 0x1234 := by
  decide

/-- T9: relative mode counts from past the displacement. -/
theorem test_relative_source :
    stepsTo (program [0x1E00, 0x0001] [(0x0033, 0x9999)]) fun t =>
      t.reg 0 == 0x9999 && t.pc == 0x0032 := by decide

/-- T8: the displacement wraps. -/
theorem test_indexed_wraps :
    stepsTo ((program [0x1CC4, 0xFFFF] [(0x00FF, 0x1111)]).setReg 3 0x0100) fun t =>
      t.reg 4 == 0x1111 := by decide

/-- T6: one pointer read. -/
theorem test_indirect :
    stepsTo (program [0x1A00, 0x0200] [(0x0200, 0x0300), (0x0300, 0x7777)]) fun t =>
      t.reg 0 == 0x7777 := by decide

/-- T10: source constant first. -/
theorem test_two_constants :
    stepsTo (program [0x1620, 0xAAAA, 0x0120] []) fun t =>
      stored t 0x0120 0xAAAA && t.pc == 0x0033 := by decide

/-- T15 and T17: PUSH, and the unchecked bottom of the stack. -/
theorem test_push :
    stepsTo ((program [0x0602] []).setReg 2 0xCAFE) (fun t => t.sp == 0x002F && stored t 0x002F 0xCAFE) ∧
    stepsTo { (program [0x0602] []).setReg 2 0x0001 with sp := 0x0008 }
      (fun t => t.sp == 0x0007 && stored t 0x0007 0x0001) := by decide

/-- T19 and T20: POP through a register, and underflow undetected. -/
theorem test_pop :
    stepsTo { (program [0x064B] [(0x002E, 0x0001)]).setReg 3 0x0140 with sp := 0x002E }
      (fun t => t.sp == 0x002F && stored t 0x0140 0x0001) ∧
    stepsTo (program [0x0643] []) (fun t => t.reg 3 == 0x0643 && t.sp == 0x0031) := by decide

/-- A2 and A4. -/
theorem test_add :
    stepsTo (withRegs (program [0x2040] []) 0x7FFF 0x0001 false false false false)
      (fun t => regFlags t 0 0x8000 false true true false) ∧
    stepsTo (withRegs (program [0x2040] []) 0x8000 0x8000 false false false false)
      (fun t => regFlags t 0 0x0000 true true false true) := by decide

/-- A7 and A10. -/
theorem test_addc :
    stepsTo (withRegs (program [0x3040] []) 0xFFFF 0x0000 true false false false)
      (fun t => regFlags t 0 0x0000 true false false true) ∧
    stepsTo (withRegs (program [0x3040] []) 0xFFFF 0xFFFF true false false false)
      (fun t => regFlags t 0 0xFFFF true false true false) := by decide

/-- A12 and A14. -/
theorem test_sub :
    stepsTo (withRegs (program [0x4040] []) 0x0003 0x0005 false false false false)
      (fun t => regFlags t 0 0xFFFE true false true false) ∧
    stepsTo (withRegs (program [0x4040] []) 0x7FFF 0xFFFF false false false false)
      (fun t => regFlags t 0 0x8000 true true true false) := by decide

/-- A20 and A22. -/
theorem test_subb :
    stepsTo (withRegs (program [0x5040] []) 0x8000 0x0000 true false false false)
      (fun t => regFlags t 0 0x7FFF false true false false) ∧
    stepsTo (withRegs (program [0x5040] []) 0x0000 0xFFFF true false false false)
      (fun t => regFlags t 0 0x0000 true false false true) := by decide

/-- A24 and A46: CMP stores nothing, but its operand's side effect happens. -/
theorem test_cmp :
    stepsTo (withRegs (program [0x9040] []) 0x0003 0x0005 false false false false)
      (fun t => regFlags t 0 0x0003 true false true false) ∧
    stepsTo ((program [0x9612, 0x0010] [(0x0100, 0x0010)]).setReg 2 0x0100)
      (fun t => regFlags t 2 0x0101 false false false true && stored t 0x0100 0x0010) := by decide

/-- SF and ZF of a result (OF and CF are free values and no test looks at them). -/
def regSfZf (t : State) (v : Word) (sf zf : Bool) : Bool :=
  t.reg 0 == v && t.psw.sf == sf && t.psw.zf == zf

/-- A26, A29, A30, A34. -/
theorem test_logic :
    stepsTo (withRegs (program [0x6040] []) 0xF0F0 0xFF00 false false false false)
      (fun t => regSfZf t 0xF000 true false) ∧
    stepsTo (withRegs (program [0x7040] []) 0x0000 0x0000 false false false false)
      (fun t => regSfZf t 0x0000 false true) ∧
    stepsTo (withRegs (program [0x8040] []) 0xAAAA 0xAAAA false false false false)
      (fun t => regSfZf t 0x0000 false true) ∧
    stepsTo (withRegs (program [0xA040] []) 0x8000 0xFFFF false false false false)
      (fun t => regSfZf t 0x8000 true false) := by decide

/-- A28, A31, A43 (NOT of R0, 04C0). -/
theorem test_or_xor_not :
    stepsTo (withRegs (program [0x7040] []) 0xF0F0 0x0F0F false false false false)
      (fun t => regSfZf t 0xFFFF true false) ∧
    stepsTo (withRegs (program [0x8040] []) 0xAAAA 0x5555 false false false false)
      (fun t => regSfZf t 0xFFFF true false) ∧
    stepsTo (withRegs (program [0x04C0] []) 0x00FF 0 false false false false)
      (fun t => regSfZf t 0xFF00 true false) := by decide

/-- A37 and A44: INC writes CF, and works on memory. -/
theorem test_inc :
    stepsTo ((program [0x0441] []).setReg 1 0xFFFF) (fun t => regFlags t 1 0x0000 true false false true) ∧
    stepsTo (program [0x0460, 0x0100] [(0x0100, 0x00FF)])
      (fun t => stored t 0x0100 0x0100 && t.pc == 0x0032) := by decide

/-- A39 and A40. -/
theorem test_dec :
    stepsTo ((program [0x0481] []).setReg 1 0x0000) (fun t => regFlags t 1 0xFFFF true false true false) ∧
    stepsTo ((program [0x0481] []).setReg 1 0x8000) (fun t => regFlags t 1 0x7FFF false true false false) := by
  decide

/-- A45: `(Rn)+` as a destination is incremented once. -/
theorem test_add_autoinc_destination :
    stepsTo ((program [0x2611, 0x0001] [(0x0100, 0xFFFF)]).setReg 1 0x0100)
      (fun t => regFlags t 1 0x0101 true false false true && stored t 0x0100 0x0000) := by decide

/-- One of the seven on R2 with CF: R2 and CF afterwards. -/
def shifts (w v : Word) (cin : Bool) (r : Word) (cout : Bool) : Bool :=
  stepsTo (withRegs ((program [w] []).setReg 2 v) 0 0 cin false false false) fun t =>
    t.reg 2 == r && t.psw.cf == cout

/-- H1, H4, H5, H8, H9, H11. -/
theorem test_shift :
    shifts 0x0042 0x8003 false 0xC001 true ∧ shifts 0x0042 0x4000 false 0x2000 false ∧
    shifts 0x0082 0x8003 false 0x0006 true ∧ shifts 0x0082 0x4000 false 0x8000 false ∧
    shifts 0x00C2 0x8003 false 0x4001 true ∧ shifts 0x00C2 0x8000 false 0x4000 false := by decide

/-- H12, H14, H15, H17. -/
theorem test_rotate :
    shifts 0x0102 0x8003 false 0x0007 true ∧ shifts 0x0102 0x8000 false 0x0001 true ∧
    shifts 0x0142 0x8003 false 0xC001 true ∧ shifts 0x0142 0x8000 false 0x4000 false := by decide

/-- H19, H20, H23, H25. -/
theorem test_rotate_through_carry :
    shifts 0x0182 0x8003 true 0x0007 true ∧ shifts 0x0182 0x0000 true 0x0001 false ∧
    shifts 0x01C2 0x8003 true 0xC001 true ∧ shifts 0x01C2 0xFFFF false 0x7FFF true := by decide

/-- J3, J4, J6 (at 0030H instead of 0040H). -/
theorem test_jmp :
    stepsTo ((program [0x0411] []).setReg 1 0x0200) (fun t => t.pc == 0x0200 && t.reg 1 == 0x0201) ∧
    stepsTo (program [0x0428, 0x0200] [(0x0200, 0x0345)]) (fun t => t.pc == 0x0345) ∧
    stepsTo (program [0x0438, 0xFFFE] []) (fun t => t.pc == 0x0030) := by decide

/-- The PC after the conditional jump to 0100H with all four flags as given. -/
def jumpsTo (w : Word) (flags : Bool) (pc : Word) : Bool :=
  stepsTo (withRegs (program [w, 0x0100] []) 0 0 flags flags flags flags) fun t => t.pc == pc

/-- J9 and J10: all flags 0. -/
theorem test_conditional_jumps_flags_clear :
    jumpsTo 0x0220 false 0x0032 ∧ jumpsTo 0x02A0 false 0x0032 ∧ jumpsTo 0x0320 false 0x0032 ∧
    jumpsTo 0x03A0 false 0x0032 ∧ jumpsTo 0x0260 false 0x0100 ∧ jumpsTo 0x02E0 false 0x0100 ∧
    jumpsTo 0x0360 false 0x0100 ∧ jumpsTo 0x03E0 false 0x0100 := by decide

/-- J11 and J12: all flags 1. -/
theorem test_conditional_jumps_flags_set :
    jumpsTo 0x0220 true 0x0100 ∧ jumpsTo 0x02A0 true 0x0100 ∧ jumpsTo 0x0320 true 0x0100 ∧
    jumpsTo 0x03A0 true 0x0100 ∧ jumpsTo 0x0260 true 0x0032 ∧ jumpsTo 0x02E0 true 0x0032 ∧
    jumpsTo 0x0360 true 0x0032 ∧ jumpsTo 0x03E0 true 0x0032 := by decide

/-- J13: an untaken jump still increments; and each jump tests its own flag, the others set against it. -/
theorem test_jump_flag_selection :
    stepsTo ((program [0x0311] []).setReg 1 0x0200) (fun t => t.pc == 0x0031 && t.reg 1 == 0x0201) ∧
    stepsTo (withRegs (program [0x0220, 0x0100] []) 0 0 true false false false) (fun t => t.pc == 0x0100) ∧
    stepsTo (withRegs (program [0x02A0, 0x0100] []) 0 0 false true false false) (fun t => t.pc == 0x0100) ∧
    stepsTo (withRegs (program [0x03A0, 0x0100] []) 0 0 false false true false) (fun t => t.pc == 0x0100) ∧
    stepsTo (withRegs (program [0x0320, 0x0100] []) 0 0 false false false true) (fun t => t.pc == 0x0100) := by
  decide

/-- J8 and K4. -/
theorem test_jump_to_register_refused :
    stepRefused (program [0x0401] []) .jumpToRegisterOperand ∧
    stepRefused (program [0x0683] []) .jumpToRegisterOperand := by decide

/-- K1, and K3 at 0030H instead of 0040H. -/
theorem test_call :
    stepsTo (program [0x06A0, 0x0100] [])
      (fun t => t.sp == 0x002F && stored t 0x002F 0x0032 && t.pc == 0x0100) ∧
    stepsTo (program [0x06B8, 0x0010] [])
      (fun t => stored t 0x002F 0x0032 && t.pc == 0x0042) := by decide

/-- K5 (at 0030H), K6. -/
theorem test_ret :
    stepsTo { program [0x0002] [(0x002F, 0x0123)] with sp := 0x002F }
      (fun t => t.pc == 0x0123 && t.sp == 0x0030) ∧
    stepsTo (program [0x0002] []) (fun t => t.pc == 0x0002 && t.sp == 0x0031) := by decide

/-- M1, M2, M3, M4. -/
theorem test_control :
    stepsTo (program [0x0000] []) (fun t => t.halted && t.pc == 0x0031) ∧
    stepsTo (program [0x0001] []) (fun t => !t.halted && t.pc == 0x0031) ∧
    stepsTo (program [0x0004] []) (fun t => t.ie && t.pc == 0x0031) ∧
    stepsTo { program [0x0005] [] with ie := true } (fun t => !t.ie && t.pc == 0x0031) := by decide

/-- M5, and M9 with PSW on the stack. -/
theorem test_reti :
    stepsTo { program [0x0003] [(0x002F, 0x0036)] with sp := 0x002F }
      (fun t => t.pc == 0x0036 && t.sp == 0x0030 && t.ie) ∧
    stepsTo { program [0x0003] [(0x002E, 0x0006), (0x002F, 0x0034)] with
        sp := 0x002E, cfg := { Config.full with intSavesPsw := true } }
      (fun t => regFlags t 0 0 false true false true && t.pc == 0x0034 && t.sp == 0x0030 && t.ie) := by
  decide

/-- M6 as the end of a NOP's step at 0030H, and M8 with the flags 1 0 1 0 on the stack as 0009H. -/
theorem test_interrupt_entry :
    stepsTo { program [0x0001] [(0x0002, 0x0080)] with ie := true, intInputs := [some 2] }
      (fun t => stored t 0x002F 0x0031 && t.sp == 0x002F && !t.ie && t.pc == 0x0080) ∧
    stepsTo { withRegs (program [0x0001] [(0x0002, 0x0080)]) 0 0 true false true false with
        ie := true, intInputs := [some 2], cfg := { Config.full with intSavesPsw := true } }
      (fun t => stored t 0x002F 0x0031 && stored t 0x002E 0x0009 && t.sp == 0x002E && t.pc == 0x0080) := by
  decide

/-- M10 and M7: EI's own check sees IE = 1; with IE = 0 nothing happens. -/
theorem test_interrupt_check :
    stepsTo { program [0x0004] [(0x0003, 0x0080)] with intInputs := [some 3] }
      (fun t => stored t 0x002F 0x0031 && t.pc == 0x0080 && !t.ie) ∧
    stepsTo { program [0x0001] [(0x0003, 0x0080)] with intInputs := [some 3] }
      (fun t => t.pc == 0x0031 && t.sp == 0x0030 && t.intInputs == []) := by decide

/-- X1 and X4. -/
theorem test_unimplemented_address :
    stepRefused { program [0x1020, 0x2000] [] with cfg := { Config.full with ramWords := 0x1000 } }
      (.unimplementedAddress 0x2000) ∧
    stepRefused { program [0x1020, 0xFF01] [] with cfg := { Config.full with hasInt := false } }
      (.unimplementedAddress 0xFF01) := by decide

/-- X3 and X6: an I/O write is recorded; the address of `(R1)+` wraps. -/
theorem test_io :
    stepsTo ((program [0x1020, 0xFF01] []).setReg 0 0x0041)
      (fun t => decide (t.ioTrace = [.write 0xFF01 0x0041]) && t.pc == 0x0032) ∧
    stepsTo ((program [0x1440] []).setReg 1 0xFFFF) (fun t => t.reg 1 == 0x0000) := by decide

/-- The table word's upper bits count on into the constants. -/
theorem test_fetch_word :
    stepsTo (State.reset.withFetchWord 48 0x0120_AAAA_1620) (fun t => stored t 0x0120 0xAAAA) ∧
    decodeTableWord 16 0x1085 = some (.mov (.reg 2) (.reg 5)) ∧ decodeTableWord 16 0xB000 = none := by decide

/-- R288 with R287: the branch on the number of operands from 004H (S10), and on the mode (S11). -/
theorem test_micro_branch :
    nextMicroAddr { MicroState.reset.uir with bm := 2, na := 4 }
      { ir := 0x0441, psw := State.reset.psw, intr := false, ie := false, mode := 0 } 0 = some 6 ∧
    nextMicroAddr { MicroState.reset.uir with bm := 2, na := 4 }
      { ir := 0x0001, psw := State.reset.psw, intr := false, ie := false, mode := 0 } 0 = some 7 ∧
    nextMicroAddr { MicroState.reset.uir with bm := 7, na := 0x00C }
      { ir := 0x2040, psw := State.reset.psw, intr := false, ie := false, mode := 0 } 0 = some 0x00C ∧
    nextMicroAddr { MicroState.reset.uir with bm := 7, na := 0x00C }
      { ir := 0x2048, psw := State.reset.psw, intr := false, ie := false, mode := 0 } 0 = some 0x00D ∧
    microCycleNs = 200 := by decide

/-- R288's observations: the entries 060H of HALT, 065H of DI, and 070H + op of MOV, TEST and an
unassigned opcode. -/
theorem test_opcode_entries :
    opcodeEntry 0x0000 = 0x060 ∧ opcodeEntry 0x0005 = 0x065 ∧ opcodeEntry 0x1085 = 0x071 ∧
    opcodeEntry 0xA000 = 0x07A ∧ opcodeEntry 0xFFFF = 0x07F := by decide

/-! ## Witnesses: for each obligation with hypotheses, a state and operands that meet them -/

theorem witness_DecodeOfEncodeIsIdentity :
    Code.WellFormed Config.full ⟨.mov .imm .relative, [0xFFFF, 0x8000]⟩ = true ∧
    Code.WellFormed Config.full ⟨.reti, []⟩ = true := by decide

/-- One word per format, with unused register fields set. -/
theorem witness_DecodedWordEncodesToCanonicalWord :
    decodeWord Config.full 0x1FE7 = .ok (.mov .relative .direct) ∧
    decodeWord Config.full 0x0467 = .ok (.inc .direct) ∧ decodeWord Config.full 0x0005 = .ok .di := by
  decide

/-- The bounds of the reserved ranges, and the assigned words next to them. -/
theorem witness_ReservedEncodingsAreRefused :
    decodeWord Config.full 0xB000 = .error .reservedEncoding ∧
    decodeWord Config.full 0xFFFF = .error .reservedEncoding ∧
    decodeWord Config.full 0x0500 = .error .reservedEncoding ∧
    decodeWord Config.full 0x05FF = .error .reservedEncoding ∧
    decodeWord Config.full 0x06C0 = .error .reservedEncoding ∧
    decodeWord Config.full 0x0FFF = .error .reservedEncoding ∧
    decodeWord Config.full 0x0006 = .error .reservedEncoding ∧
    decodeWord Config.full 0x003F = .error .reservedEncoding ∧
    decodeWord Config.full 0xAFFF = .ok (.test .relative .relative) ∧
    decodeWord Config.full 0x04FF = .ok (.not .relative) ∧
    decodeWord Config.full 0x0600 = .ok (.push (.reg 0)) ∧
    decodeWord Config.full 0x06BF = .ok (.call .relative) ∧
    decodeWord Config.full 0x0040 = .ok (.sar (.reg 0)) := by decide

theorem witness_ReservedEncodingsAreRefused_step :
    (program [0xB000] []).halted = false ∧ ∃ t, fetchWord (program [0xB000] []) = .next (0xB000, t) :=
  ⟨rfl, _, rfl⟩

theorem witness_ImmediateDestinationIsRefused :
    decodeWord Config.full 0x101F = .error .immediateDestination ∧
    (instrOfWord 0x101F = some (.mov (.reg 0) .imm) ∧ wordFormat 0x101F ≠ .zero ∧ fieldMd 0x101F = 0b011) ∧
    ∃ t, fetchWord (program [0x101F] []) = .next (0x101F, t) :=
  ⟨by decide, by decide, _, rfl⟩

/-- One word per module. -/
theorem witness_AbsentModulesRejectTheirInstructions :
    decodeWord Config.full 0x0042 = .ok (.sar (.reg 2)) ∧
    decodeWord Config.full 0x00C2 = .ok (.shr (.reg 2)) ∧
    decodeWord Config.full 0x0003 = .ok .reti := by decide

/-- One word per format, and a microinstruction with BM = 2. -/
theorem witness_FormatIsChosenByOpcodeExpansion :
    decodeWord Config.full 0x1000 = .ok (.mov (.reg 0) (.reg 0)) ∧
    decodeWord Config.full 0x0040 = .ok (.sar (.reg 0)) ∧ decodeWord Config.full 0x0001 = .ok .nop ∧
    ({ MicroState.reset.uir with bm := 2, na := 4 } : MicroInstr).bm = 2 := by decide

/-- A microinstruction for each branch mode, a word of each format, and the first and last conditional
jump. -/
theorem witness_MicroAddressFollowsTheBranchMode :
    (∀ b : BitVec 3, ({ MicroState.reset.uir with bm := b } : MicroInstr).bm = b) ∧
    (wordFormat 0x1000 = .double ∧ wordFormat 0x0040 = .single ∧ wordFormat 0x0001 = .zero) ∧
    instrOfWord 0x0220 = some (.jc .direct) ∧ instrOfWord 0x03E0 = some (.jns .direct) ∧
    (0x2040 : Word).extractLsb' 3 3 = 0b000 := ⟨fun _ => rfl, by decide, by decide, by decide, by decide⟩

/-- BM = 4 and BM = 2 with NA = 004H, a word of each format, and two words with one opcode. -/
theorem witness_OpcodeBranchFollowsTheAllocation :
    ({ MicroState.reset.uir with bm := 4 } : MicroInstr).bm = 4 ∧
    (({ MicroState.reset.uir with bm := 2, na := 4 } : MicroInstr).bm = 2 ∧
      ({ MicroState.reset.uir with bm := 2, na := 4 } : MicroInstr).na = 0x004) ∧
    (wordFormat 0x1000 = .double ∧ wordFormat 0x0441 = .single ∧ wordFormat 0x0005 = .zero) ∧
    wordFormat 0x0460 = .single ∧ (0x0460 : Word).extractLsb' 6 6 = (0x0441 : Word).extractLsb' 6 6 := by
  decide

theorem witness_GeneralRegistersAreOrdinary :
    ∃ t, fetchWord (program [0xFFFF] []) = .next (0xFFFF, t) := ⟨_, rfl⟩

/-- One word per length. -/
theorem witness_LengthFollowsFromTheWord :
    decodeWord Config.full 0x1620 = .ok (.mov .imm .direct) ∧
    decodeWord Config.full 0x0460 = .ok (.inc .direct) ∧ decodeWord Config.full 0x0001 = .ok .nop := by
  decide

theorem witness_StepRunsTheDecodedInstruction :
    (program [0x2040] []).halted = false ∧
    accessible (program [0x2040] []).cfg (program [0x2040] []).pc = true ∧
    decodeWord (program [0x2040] []).cfg ((program [0x2040] []).peek (program [0x2040] []).pc) =
      .ok (.add (.reg 1) (.reg 0)) := ⟨rfl, rfl, rfl⟩

theorem witness_HaltEndsTheRun :
    (program [0x0000] []).halted = false ∧
    accessible (program [0x0000] []).cfg (program [0x0000] []).pc = true ∧
    (program [0x0000] []).peek (program [0x0000] []).pc = 0x0000 ∧
    { program [0x0000] [] with halted := true }.halted = true := ⟨rfl, rfl, rfl, rfl⟩

theorem witness_PcAdvancesByTheLength :
    ∃ t u, fetchInstr (program [0x1620, 0xAAAA, 0x0120] []) = .next (.mov .imm .direct, t) ∧
      exec (.mov .imm .direct) t = .next u ∧ (Instr.mov .imm .direct).isTransfer = false :=
  ⟨_, _, rfl, rfl, rfl⟩

/-- The last RAM word, the first I/O word, the first hole, the last hole, and the region without its
module. -/
theorem witness_MemoryPrimitivesFollowTheMap :
    (0xFEFF : Word).toNat < Config.full.ramWords ∧
    (Config.full.ramWords ≤ (0xFF00 : Word).toNat ∧ Config.full.hasInt = true ∧ 0xFF00 ≤ (0xFF00 : Word).toNat) ∧
    ({ Config.full with ramWords := 0x1000 }.ramWords ≤ (0x1000 : Word).toNat ∧ (0x1000 : Word).toNat < 0xFF00) ∧
    ({ Config.full with ramWords := 0x1000 }.ramWords ≤ (0xFEFF : Word).toNat ∧ (0xFEFF : Word).toNat < 0xFF00) ∧
    ({ Config.full with hasInt := false }.ramWords ≤ (0xFFFF : Word).toNat ∧
      { Config.full with hasInt := false }.hasInt = false) := by decide

theorem witness_StoredWordIsFetchedNext :
    (isRam (program [] []).cfg 0xFEFF = true ∧ ∃ t, memWrite 0xFEFF 1 (program [] []) = .next t) ∧
    ∃ t s₁, OperandsReady (.reg 0) .direct (program [0x0031] []) 0 (.mem 0x0031) s₁ ∧
      isRam (program [0x0031] []).cfg 0x0031 = true ∧
      exec (.mov (.reg 0) .direct) (program [0x0031] []) = .next t ∧ t.pc = 0x0031 :=
  ⟨⟨rfl, _, rfl⟩, _, _, ⟨_, rfl, rfl, rfl⟩, rfl, rfl, rfl⟩

/-- A readable constant and pointer; and for the source a location of each kind, an address that cannot
be read among them, and a mode that is refused. -/
theorem witness_AddressingModesGiveTheirLocations :
    (accessible (program [0xFFFF] []).cfg (program [0xFFFF] []).pc = true ∧
      accessible (program [0xFFFF] []).cfg ((program [0xFFFF] []).peek (program [0xFFFF] []).pc) = true) ∧
    (∃ t, resolve (.reg 1) (program [] []) = .next (.reg 1, t)) ∧
    (∃ t, resolve .imm (program [0x8000] []) = .next (.imm 0x8000, t)) ∧
    (∃ t, resolve .direct (program [0xFEFF] []) = .next (.mem 0xFEFF, t)) ∧
    accessible (program [0xFEFF] []).cfg 0xFEFF = true ∧
    accessible { Config.full with ramWords := 0x1000 } 0xFEFF = false ∧
    resolve .imm { program [] [] with pc := 0x2000, cfg := { Config.full with ramWords := 0x1000 } } =
      .refused (.unimplementedAddress 0x2000) :=
  ⟨⟨rfl, rfl⟩, ⟨_, rfl⟩, ⟨_, rfl⟩, ⟨_, rfl⟩, rfl, rfl, rfl⟩

/-- R1 = 0100H with the two words there; the word at PC is 0. -/
def pair : State := (program [0x0000] [(0x0100, 0x1234), (0x0101, 0x8000)]).setReg 1 0x0100

theorem witness_SameRegisterInBothOperands :
    isRam pair.cfg (pair.reg 1) = true ∧ isRam pair.cfg (pair.reg 1 + 1) = true ∧
    Memory.read pair.mem (pair.reg 1).toNat = some 0x1234 ∧
    Memory.read pair.mem (pair.reg 1 + 1).toNat = some 0x8000 ∧
    isRam pair.cfg pair.pc = true ∧ Memory.read pair.mem pair.pc.toNat = some 0x0000 ∧
    isRam pair.cfg (pair.reg 1 + 1 + 0x0000) = true := by decide

/-- A constant FF01H at PC: direct mode names an I/O word. -/
theorem witness_IoDestinationAccessesInOrder :
    (∃ s₁, OperandReady .direct (program [0xFF01] []) (.mem 0xFF01) s₁) ∧
    (∃ s₁, OperandsReady (.reg 0) .direct (program [0xFF01] []) 0 (.mem 0xFF01) s₁) ∧
    isRam (program [0xFF01] []).cfg 0xFF01 = false :=
  ⟨⟨_, rfl, rfl⟩, ⟨_, _, rfl, rfl, rfl⟩, rfl⟩

/-- A register and a memory destination, with an immediate source. -/
theorem witness_MovCopiesItsSource :
    (∃ t, OperandsReady .imm (.reg 1) (program [0x1234] []) 0x1234 (.reg 1) t) ∧
    (∃ t, OperandsReady .imm .direct (program [0x1234, 0x0100] []) 0x1234 (.mem 0x0100) t) ∧
    isRam (program [0x1234, 0x0100] []).cfg 0x0100 = true :=
  ⟨⟨_, _, rfl, rfl, trivial⟩, ⟨_, _, rfl, rfl, rfl⟩, rfl⟩

theorem witness_AdditionsWriteSumAndFlags :
    (∃ t, OperandsReady (.autoInc 1) (.autoInc 1) pair 0x1234 (.mem 0x0101) t) ∧
    ∃ t, OperandReady (.ind 1) pair (.mem 0x0100) t :=
  ⟨⟨_, _, rfl, rfl, rfl⟩, _, rfl, rfl⟩

theorem witness_SubtractionsWriteDifferenceAndFlags :
    (∃ t, OperandsReady (.ind 1) (.reg 1) pair 0x1234 (.reg 1) t) ∧
    ∃ t, OperandReady (.reg 1) pair (.reg 1) t :=
  ⟨⟨_, _, rfl, rfl, trivial⟩, _, rfl, trivial⟩

theorem witness_CompareSetsFlagsOfTheDifference :
    ∃ t, OperandsReady (.reg 1) (.autoInc 1) pair 0x0100 (.mem 0x0100) t := ⟨_, _, rfl, rfl, rfl⟩

theorem witness_LogicWritesResultAndItsFlags :
    (∃ t, OperandsReady (.reg 1) (.ind 1) pair 0x0100 (.mem 0x0100) t) ∧
    ∃ t, OperandReady (.reg 7) pair (.reg 7) t :=
  ⟨⟨_, _, rfl, rfl, rfl⟩, _, rfl, trivial⟩

theorem witness_ShiftsMoveOneBit :
    (∃ t, OperandReady (.reg 1) pair (.reg 1) t) ∧ ∃ t, OperandReady (.autoInc 1) pair (.mem 0x0100) t :=
  ⟨⟨_, rfl, trivial⟩, _, rfl, rfl⟩

/-- SP at the reset value and at 0, where the push wraps into the I/O region. -/
theorem witness_PushAndPopMoveThroughTheStack :
    (∃ t, OperandReady (.reg 1) pair (.reg 1) t) ∧ accessible pair.cfg (pair.sp - 1) = true ∧
    accessible pair.cfg pair.sp = true ∧
    accessible { pair with sp := 0 }.cfg ({ pair with sp := 0 }.sp - 1) = true :=
  ⟨⟨_, rfl, trivial⟩, rfl, rfl, rfl⟩

theorem witness_PopGivesBackThePushedWord :
    ∃ t u, OperandReady (.ind 1) pair (.mem 0x0100) t ∧ isRam pair.cfg (pair.sp - 1) = true ∧
      exec (.push (.ind 1)) pair = .next u :=
  ⟨_, _, ⟨rfl, rfl⟩, rfl, rfl⟩

theorem witness_JumpsGoToTheEffectiveAddress :
    (∃ t, resolveDst (.autoInc 1) pair = .next (.mem 0x0100, t)) ∧
    (∀ e ∈ jumpTable, e.2 { cf := true, of := true, sf := true, zf := true } ∨
      e.2 { cf := false, of := false, sf := false, zf := false }) :=
  ⟨⟨_, rfl⟩, by simp [jumpTable]⟩

/-- JC and JNS, the ends of the range, and a microinstruction with BM = 3. -/
theorem witness_JumpConditionIsReadFromTheOpcode :
    decodeWord Config.full 0x0220 = .ok (.jc .direct) ∧ (0x0220 : Word).extractLsb' 9 7 = 0b0000001 ∧
    decodeWord Config.full 0x03E0 = .ok (.jns .direct) ∧ (0x03E0 : Word).extractLsb' 9 7 = 0b0000001 ∧
    (∃ t, resolveDst .direct (program [0x0100] []) = .next (.mem 0x0100, t)) ∧
    ({ MicroState.reset.uir with bm := 3 } : MicroInstr).bm = 3 :=
  ⟨by decide, by decide, by decide, by decide, ⟨_, rfl⟩, rfl⟩

theorem witness_JumpToRegisterIsRefused :
    (Instr.jz (.reg 7)).isTransfer = true ∧ (Instr.jz (.reg 7)).dst? = some (.reg 7) ∧
    (Instr.call (.reg 0)).isTransfer = true ∧ (Instr.call (.reg 0)).dst? = some (.reg 0) := by decide

theorem witness_CallAndRetUseTheStack :
    (∃ t, resolveDst .relative (program [0x0010] []) = .next (.mem 0x0041, t)) ∧
    accessible (program [0x0010] []).cfg ((program [0x0010] []).sp - 1) = true ∧
    accessible (program [0x0010] []).cfg (program [0x0010] []).sp = true :=
  ⟨⟨_, rfl⟩, rfl, rfl⟩

theorem witness_RetReturnsAfterItsCall :
    isRam (program [0x0100] []).cfg ((program [0x0100] []).sp - 1) = true ∧
    ∃ t, exec (.call .direct) (program [0x0100] []) = .next t ∧ t.sp = t.sp := ⟨rfl, _, rfl, rfl⟩

/-- A request that the check after EI or DI sees. -/
theorem witness_ControlInstructionsDoExactlyThis :
    { pair with intInputs := [some 7] }.cfg.hasInt = true ∧ { pair with intInputs := [some 7] }.halted = false ∧
    { pair with intInputs := [some 7] }.intInputs = some 7 :: [] := ⟨rfl, rfl, rfl⟩

/-- A machine with INT_SAVES_PSW. -/
def saving : State := { pair with cfg := { Config.full with intSavesPsw := true } }

theorem witness_RetiRestoresAndEnables :
    accessible pair.cfg pair.sp = true ∧ pair.cfg.intSavesPsw = false ∧
    accessible saving.cfg saving.sp = true ∧ saving.cfg.intSavesPsw = true ∧
    accessible saving.cfg (saving.sp + 1) = true := by decide

theorem witness_InterruptEntrySavesAndVectors :
    accessible saving.cfg (saving.sp - 1) = true ∧ accessible saving.cfg (saving.sp - 2) = true ∧
    accessible saving.cfg (BitVec.ofNat 16 (7 : VecNum).val) = true := by decide

theorem witness_InterruptAcceptedWhenRequestedAndEnabled :
    ({ pair with cfg := { Config.full with hasInt := false } }.cfg.hasInt = false ∧
      { pair with halted := true }.halted = true) ∧
    (pair.cfg.hasInt = true ∧ pair.halted = false ∧ pair.intInputs = [] ∧
      { pair with intInputs := [none] }.intInputs = none :: [] ∧
      { pair with intInputs := [some 0], ie := true }.ie = true ∧ pair.ie = false) ∧
    (∃ t, exec .ei pair = .next t) ∧ (∃ t, exec .reti pair = .next t) ∧ (∃ t, exec .di pair = .next t) ∧
    ∃ t, interruptEntry 0 pair = .next t :=
  ⟨⟨rfl, rfl⟩, ⟨rfl, rfl, rfl, rfl, rfl, rfl⟩, ⟨_, rfl⟩, ⟨_, rfl⟩, ⟨_, rfl⟩, _, rfl⟩

theorem witness_InterruptMicroBranchTestsIntrAndIe :
    ({ MicroState.reset.uir with bm := 1, na := 0 } : MicroInstr).bm = 1 ∧
    ({ MicroState.reset.uir with bm := 1, na := 0 } : MicroInstr).na = 0x000 := ⟨rfl, rfl⟩

theorem witness_RetiUndoesInterruptEntry :
    (∃ t, interruptEntry 2 pair = .next t ∧ t.sp = t.sp) ∧ isRam pair.cfg (pair.sp - 1) = true ∧
    (∃ t, interruptEntry 2 saving = .next t ∧ t.sp = t.sp) ∧ isRam saving.cfg (saving.sp - 1) = true ∧
    isRam saving.cfg (saving.sp - 2) = true :=
  ⟨⟨_, rfl, rfl⟩, rfl, ⟨_, rfl, rfl⟩, rfl, rfl⟩

/-- Every instruction of the group, both operands `(R1)+`. -/
theorem witness_DoubleOperandStoreFrame :
    (∀ mk ∈ [Instr.mov, .add, .addc, .sub, .subb, .and, .or, .xor],
      ∃ t, exec (mk (.autoInc 1) (.autoInc 1)) pair = .next t) ∧
    ∃ s₁ s₂, readSource (.autoInc 1) pair = .next (0x1234, s₁) ∧
      resolveDst (.autoInc 1) s₁ = .next (.mem 0x0101, s₂) := by
  constructor
  · intro mk h
    simp only [List.mem_cons, List.not_mem_nil, or_false] at h
    rcases h with rfl | rfl | rfl | rfl | rfl | rfl | rfl | rfl <;> exact ⟨_, rfl⟩
  · exact ⟨_, _, rfl, rfl⟩

theorem witness_CompareAndTestFrame :
    ∀ mk ∈ [Instr.cmp, .test], ∃ t, exec (mk (.autoInc 1) (.ind 1)) pair = .next t := by
  intro mk h
  simp only [List.mem_cons, List.not_mem_nil, or_false] at h
  rcases h with rfl | rfl <;> exact ⟨_, rfl⟩

theorem witness_SingleOperandStoreFrame :
    (∀ mk ∈ [Instr.inc, .dec, .not, .sar, .shl, .shr, .rol, .ror, .rcl, .rcr],
      ∃ t, exec (mk (.autoInc 1)) pair = .next t) ∧
    ∃ s₁, resolveDst (.autoInc 1) pair = .next (.mem 0x0100, s₁) := by
  constructor
  · intro mk h
    simp only [List.mem_cons, List.not_mem_nil, or_false] at h
    rcases h with rfl | rfl | rfl | rfl | rfl | rfl | rfl | rfl | rfl | rfl <;> exact ⟨_, rfl⟩
  · exact ⟨_, rfl⟩

theorem witness_JumpFrame : ∀ e ∈ jumpTable, ∃ t, exec (e.1 (.autoInc 1)) pair = .next t := by
  intro e h
  simp only [jumpTable, List.mem_cons, List.not_mem_nil, or_false] at h
  rcases h with rfl | rfl | rfl | rfl | rfl | rfl | rfl | rfl | rfl <;> exact ⟨_, rfl⟩

theorem witness_StackInstructionFrame :
    (∃ t, exec (.push (.autoInc 1)) pair = .next t) ∧ (∃ t, exec (.call (.autoInc 1)) pair = .next t) ∧
    (∃ t s₁, exec (.pop (.autoInc 1)) pair = .next t ∧
      resolveDst (.autoInc 1) pair = .next (.mem 0x0100, s₁)) ∧
    (∃ t, exec .ret pair = .next t) ∧ (∃ t, exec .reti pair = .next t) ∧ ∃ t, exec .reti saving = .next t :=
  ⟨⟨_, rfl⟩, ⟨_, rfl⟩, ⟨_, _, rfl, rfl⟩, ⟨_, rfl⟩, ⟨_, rfl⟩, _, rfl⟩

/-- A state with a program, on the full machine and on one without either module, that steps. -/
theorem witness_StepKeepsTheInvariant :
    ((program [0x1051] []).Inv ∧ ∃ t, step (program [0x1051] []) = .next t) ∧
    ({ program [0x1051] [] with cfg := ⟨0x31, false, false, false⟩ } : State).Inv :=
  ⟨⟨⟨by decide, by decide, by decide, by decide, by decide, by decide, by decide⟩, _, rfl⟩,
    ⟨by decide, by decide, by decide, by decide, by decide, by decide, by decide⟩⟩

theorem witness_EveryInstructionCompletes :
    (program [0x0409] []).FullyBacked ∧ (Instr.jmp (.ind 1)).dstLegal = true ∧
    (∀ n, (Instr.jmp (.ind 1)).dst? ≠ some (.reg n)) ∧ (program [0x0409] []).halted = false ∧
    decodeWord (program [0x0409] []).cfg ((program [0x0409] []).peek (program [0x0409] []).pc) =
      .ok (.jmp (.ind 1)) :=
  ⟨⟨rfl, rfl⟩, rfl, by decide, rfl, rfl⟩

/-- A refusal of each of the three kinds, and the one fault. -/
theorem witness_NoSynchronousExceptions :
    exec (.inc .imm) pair = .refused .immediateDestination ∧
    exec (.jz (.reg 0)) pair = .refused .jumpToRegisterOperand ∧
    exec (.inc (.ind 1)) { pair with cfg := { Config.full with ramWords := 0x0031 } } =
      .refused (.unimplementedAddress 0x0100) ∧
    step { pair with halted := true } = .fault .halted := ⟨rfl, rfl, rfl, rfl⟩

theorem witness_FlagsAreReadByTheirReadersOnly :
    ReadsAlike (.jz (.ind 1)) pair.psw { cf := true, of := true, sf := true, zf := false } ∧
    (∃ t, exec (.jz (.ind 1)) pair = .next t) ∧
    ReadsAlike (.rcl (.reg 1)) pair.psw { cf := false, of := true, sf := true, zf := true } ∧
    ∃ t, exec (.rcl (.reg 1)) pair = .next t := ⟨rfl, ⟨_, rfl⟩, rfl, _, rfl⟩

theorem witness_StackPointerIsUsedByFiveInstructions :
    usesSp (.add (.reg 1) (.ind 1)) = false ∧ (∃ t, exec (.add (.reg 1) (.ind 1)) pair = .next t) ∧
    usesSp .reti = true ∧ ∃ t, exec .reti saving = .next t := ⟨rfl, ⟨_, rfl⟩, rfl, _, rfl⟩

theorem witness_ControlStateHasItsWriters :
    (∃ t, exec .ei pair = .next t) ∧ (∃ t, exec .di pair = .next t) ∧ (∃ t, exec .reti pair = .next t) ∧
    (∃ t, exec .halt pair = .next t) ∧ ∃ t, exec (.mov (.reg 0) (.reg 1)) pair = .next t :=
  ⟨⟨_, rfl⟩, ⟨_, rfl⟩, ⟨_, rfl⟩, ⟨_, rfl⟩, _, rfl⟩

end Sys2Proof.Tests
end

section
/-! PROOFS. The general registers R0~R7 (spec R20): which operand each register mode decodes to, and what
an operand does with the register it names. -/

namespace Sys2Proof.Machine

/-- The four register modes name the register of the 3-bit field, whichever it is (R86, R87). -/
theorem decodeOperand_register_modes (r : BitVec 3) :
    decodeOperand 0b000 r = .reg r.toFin ∧ decodeOperand 0b001 r = .ind r.toFin ∧
      decodeOperand 0b010 r = .autoInc r.toFin ∧ decodeOperand 0b110 r = .indexed r.toFin :=
  ⟨rfl, rfl, rfl, rfl⟩

/-- A register source is the register's value, and reading it changes nothing (R115, R123). -/
theorem readSource_reg (n : RegNum) (s : State) : readSource (.reg n) s = .next (s.reg n, s) := rfl

/-- A register destination is the register itself: reading and writing its location reads and writes
the register (R115, R123, R124). -/
theorem resolveDst_reg_readLoc_writeLoc (n : RegNum) (s : State) (v : Word) :
    ∃ l, resolveDst (.reg n) s = .next (l, s) ∧ readLoc l s = .next (s.reg n, s) ∧
      writeLoc l v s = .next (s.setReg n v) :=
  ⟨.reg n, rfl, rfl, rfl⟩

/-- The address of `(Rn)` is the register (R116). -/
theorem resolve_ind (n : RegNum) (s : State) : resolve (.ind n) s = .next (.mem (s.reg n), s) := rfl

/-- The address of `(Rn)+` is the register before 1 is added to it (R117). -/
theorem resolve_autoInc (n : RegNum) (s : State) :
    resolve (.autoInc n) s = .next (.mem (s.reg n), s.setReg n (s.reg n + 1)) := rfl

/-- Fetching a word leaves the general registers alone (R111). -/
theorem fetchWord_reg {s t : State} {w : Word} (h : fetchWord s = .next (w, t)) (n : RegNum) :
    t.reg n = s.reg n := by
  obtain ⟨-, -, rfl⟩ := fetchWord_eq_next.mp h
  exact State.reg_congr (State.afterRead_regs s s.pc) n

/-- The address of `disp(Rn)` is the register plus the displacement word fetched through PC (R121). -/
theorem resolve_indexed {s t : State} {w : Word} (h : fetchWord s = .next (w, t)) (n : RegNum) :
    resolve (.indexed n) s = .next (.mem (s.reg n + w), t) := by
  simp only [resolve, h, andThen_next, fetchWord_reg h]

/-- Settles O14, from the equation of each register mode; the index is read after the displacement is
fetched, which leaves the registers alone. -/
theorem generalRegistersAreOrdinary : Obligations.GeneralRegistersAreOrdinary := by
  unfold Obligations.GeneralRegistersAreOrdinary
  refine ⟨decodeOperand_register_modes, fun s n m v =>
    ⟨?_, readSource_reg n s, resolveDst_reg_readLoc_writeLoc n s v, resolve_ind n s,
      ⟨_, resolve_autoInc n s⟩, fun w t h => resolve_indexed h n⟩⟩
  rw [State.reg_setReg]
  exact if_congr eq_comm rfl rfl

end Sys2Proof.Machine
end

section
/-! PROOFS. What the opcode maps and the decoder answer (spec R85~R95): the operands of a decoded
instruction are the address codes of its word, so its format and its length follow from the word. -/

namespace Sys2Proof

/-- The class tests of R85 are tests of the fields as bit patterns. -/
theorem wordFormat_eq_opcode_expansion (w : Word) :
    wordFormat w = if w.extractLsb' 12 4 ≠ 0 then .double
                   else if w.extractLsb' 6 6 ≠ 0 then .single else .zero := by
  simp only [wordFormat, fieldOp, fieldSop, ne_eq, BitVec.toNat_eq]
  rfl

/-- An instruction of the format D map has exactly the two operands it is given (R82, R92). -/
theorem operands_of_doubleOp {n : Nat} {mk : Operand → Operand → Instr} (h : doubleOp n = some mk)
    (src dst : Operand) : (mk src dst).src? = some src ∧ (mk src dst).dst? = some dst := by
  unfold doubleOp at h
  split at h <;> cases h <;> exact ⟨rfl, rfl⟩

/-- An instruction of the format S map has the destination it is given and no source (R83, R93). -/
theorem operands_of_singleOp {n : Nat} {mk : Operand → Instr} (h : singleOp n = some mk)
    (dst : Operand) : (mk dst).src? = none ∧ (mk dst).dst? = some dst := by
  unfold singleOp at h
  split at h <;> cases h <;> exact ⟨rfl, rfl⟩

/-- An instruction of the format Z map has no operand (R84, R94). -/
theorem operands_of_zeroOp {n : Nat} {i : Instr} (h : zeroOp n = some i) :
    i.src? = none ∧ i.dst? = none := by
  unfold zeroOp at h
  split at h <;> cases h <;> exact ⟨rfl, rfl⟩

/-- A word decodes to the instruction the opcode map gives it, if that is well formed on the machine
(R95, R96, R98). -/
theorem decodeWord_eq_ok {c : Config} {w : Word} {i : Instr} :
    decodeWord c w = .ok i ↔ instrOfWord w = some i ∧ i.WellFormed c = true := by
  unfold decodeWord
  cases instrOfWord w with
  | none => simp
  | some j =>
    constructor
    · intro h
      cases hm : c.has j.module <;> cases hd : j.dstLegal <;> simp [hm, hd] at h
      subst h
      exact ⟨rfl, by rw [Instr.WellFormed, hm, hd]; rfl⟩
    · rintro ⟨⟨⟩, hwf⟩
      obtain ⟨hm, hd⟩ := Bool.and_eq_true_iff.mp hwf
      simp [hm, hd]

/-- What the opcode map can give a word: an instruction of the map its format names, on the address
codes of the word (R82~R85, R92~R94). -/
theorem instrOfWord_cases {w : Word} {i : Instr} (h : instrOfWord w = some i) :
    (wordFormat w = .double ∧ ∃ mk, doubleOp (fieldOp w) = some mk ∧
      i = mk (decodeOperand (fieldMs w) (fieldRs w)) (decodeOperand (fieldMd w) (fieldRd w))) ∨
    (wordFormat w = .single ∧ ∃ mk, singleOp (fieldSop w) = some mk ∧
      i = mk (decodeOperand (fieldMd w) (fieldRd w))) ∨
    (wordFormat w = .zero ∧ zeroOp (fieldZop w) = some i) := by
  unfold instrOfWord at h
  cases hf : wordFormat w with
  | double =>
    rw [hf] at h
    obtain ⟨mk, hmk, rfl⟩ := Option.map_eq_some_iff.mp h
    exact .inl ⟨rfl, mk, hmk, rfl⟩
  | single =>
    rw [hf] at h
    obtain ⟨mk, hmk, rfl⟩ := Option.map_eq_some_iff.mp h
    exact .inr (.inl ⟨rfl, mk, hmk, rfl⟩)
  | zero =>
    rw [hf] at h
    exact .inr (.inr ⟨rfl, h⟩)

/-- The operands the opcode map gives a word, by its format. -/
theorem operands_of_instrOfWord {w : Word} {i : Instr} (h : instrOfWord w = some i) :
    i.src? = (if wordFormat w = .double then some (decodeOperand (fieldMs w) (fieldRs w)) else none) ∧
    i.dst? = (if wordFormat w = .zero then none else some (decodeOperand (fieldMd w) (fieldRd w))) := by
  obtain ⟨hf, mk, hmk, rfl⟩ | ⟨hf, mk, hmk, rfl⟩ | ⟨hf, hz⟩ := instrOfWord_cases h
  · simpa [hf] using operands_of_doubleOp hmk _ _
  · simpa [hf] using operands_of_singleOp hmk _
  · simpa [hf] using operands_of_zeroOp hz

/-- The instruction of a word has the format of the word (R81, R85). -/
theorem format_of_instrOfWord {w : Word} {i : Instr} (h : instrOfWord w = some i) :
    i.format = wordFormat w := by
  obtain ⟨hsrc, hdst⟩ := operands_of_instrOfWord h
  rw [Instr.format, hsrc, hdst]
  cases wordFormat w <;> rfl

/-- An operand adds at most one word (R88). -/
theorem Operand.constWords_le_one (o : Operand) : o.constWords ≤ 1 := by
  unfold Operand.constWords
  split <;> decide

/-- No instruction has fewer than one or more than three words (R80). -/
theorem Instr.length_bounds (i : Instr) : 1 ≤ i.length ∧ i.length ≤ 3 := by
  have bound (o : Option Operand) : o.elim 0 Operand.constWords ≤ 1 := by
    cases o with
    | none => exact Nat.zero_le 1
    | some o => exact o.constWords_le_one
  have hsrc := bound i.src?
  have hdst := bound i.dst?
  unfold Instr.length Instr.constCount
  omega

/-- HasConst of R88 by the value of the mode: modes 011 to 111 have a constant word. -/
theorem constWords_decodeOperand (m r : BitVec 3) :
    (decodeOperand m r).constWords = if 0b011 ≤ m.toNat then 1 else 0 := by
  revert m r
  decide

/-- Settles O8: the operands of a decoded instruction are the address codes of its word, and each adds
its constant word. -/
theorem lengthFollowsFromTheWord : Obligations.LengthFollowsFromTheWord := by
  intro c w i h
  have hi := (decodeWord_eq_ok.mp h).1
  refine ⟨?_, i.length_bounds⟩
  obtain ⟨hsrc, hdst⟩ := operands_of_instrOfWord hi
  rw [format_of_instrOfWord hi, Instr.length, Instr.constCount, hsrc, hdst]
  cases wordFormat w <;>
    simp [constWords_decodeOperand, fieldMs, fieldMd, Nat.add_assoc]

end Sys2Proof
end

section
/-! PROOFS. The micro-branch on the number of operands (spec R85, R287). -/

namespace Sys2Proof.Machine

/-- BM = 2 replaces µAR1 and µAR0 of NA: 0 and a free bit in format D, 10 in format S, 11 in format Z. -/
theorem nextMicroAddr_operandCount {m : MicroInstr} (hm : m.bm = 2) (t : MicroTests) (n : Nat) :
    ∃ test, nextMicroAddr m t n = some (replaceBits m.na 0x003 test) ∧
      (wordFormat t.ir = .double → test.getLsbD 1 = false) ∧
      (wordFormat t.ir = .single → test = 0x002) ∧ (wordFormat t.ir = .zero → test = 0x003) := by
  cases hf : wordFormat t.ir with
  | double => exact ⟨_, by simp only [nextMicroAddr, hm, hf]; rfl, fun _ => by simp, nofun, nofun⟩
  | single => exact ⟨_, by simp only [nextMicroAddr, hm, hf]; rfl, nofun, fun _ => rfl, nofun⟩
  | zero => exact ⟨_, by simp only [nextMicroAddr, hm, hf]; rfl, nofun, nofun, fun _ => rfl⟩

/-- Settles O7: the class test as R85 states it, the map each class looks its opcode up in, and the
micro-branch on the number of operands. -/
theorem formatIsChosenByOpcodeExpansion : Obligations.FormatIsChosenByOpcodeExpansion := by
  intro w
  refine ⟨wordFormat_eq_opcode_expansion w, fun c i h => ?_, ?_⟩
  · have hi := (decodeWord_eq_ok.mp h).1
    refine ⟨format_of_instrOfWord hi, ?_⟩
    obtain ⟨hf, mk, hmk, rfl⟩ | ⟨hf, mk, hmk, rfl⟩ | ⟨hf, hz⟩ := instrOfWord_cases hi <;> rw [hf]
    · exact ⟨fun _ => ⟨mk, _, _, hmk, rfl⟩, nofun, nofun⟩
    · exact ⟨nofun, fun _ => ⟨mk, _, hmk, rfl⟩, nofun⟩
    · exact ⟨nofun, nofun, fun _ => hz⟩
  · rintro m t n hm rfl
    obtain ⟨test, ha, hd, hs, hz⟩ := nextMicroAddr_operandCount hm t n
    refine ⟨_, ha, fun hf => ?_, fun hf => ?_, fun hf => ?_⟩
    · exact (getLsbD_replaceBits ..).trans (hd hf)
    · simp [hs hf]
    · simp [hz hf]

end Sys2Proof.Machine
end

section
/-! PROOFS. The interrupt check (spec R252~R254), case by case, and what each writer of IE leaves in it
(spec R232~R234, R257). -/

namespace Sys2Proof.Machine

/-- Without HAS_INT or when halted there is no check (R254). -/
theorem interruptCheck_without_check {s : State} (h : s.cfg.hasInt = false ∨ s.halted = true) :
    interruptCheck s = .next s := by
  unfold interruptCheck
  obtain hint | hhalt := h
  · simp [hint]
  · simp [hhalt]

section RunningMachine
variable {s : State} (hint : s.cfg.hasInt = true) (hrun : s.halted = false)
include hint hrun

/-- With no answer left nothing happens (R252, log 7). -/
theorem interruptCheck_of_no_answer (h : s.intInputs = []) : interruptCheck s = .next s := by
  simp [interruptCheck, hint, hrun, h]

/-- The answer "no request" is used up, and nothing else happens (R252, log 7). -/
theorem interruptCheck_of_no_request {later : List (Option VecNum)} (h : s.intInputs = none :: later) :
    interruptCheck s = .next { s with intInputs := later } := by
  simp [interruptCheck, hint, hrun, h]

/-- A request is used up; IE decides whether it is accepted (R253, log 7). -/
theorem interruptCheck_of_request {n : VecNum} {later : List (Option VecNum)}
    (h : s.intInputs = some n :: later) :
    interruptCheck s = if s.ie then interruptEntry n { s with intInputs := later }
      else .next { s with intInputs := later } := by
  simp [interruptCheck, hint, hrun, h]

end RunningMachine

/-- Interrupt entry leaves IE at 0: the vector's word is read after IE is cleared (R257, D21). -/
theorem ie_of_interruptEntry {n : VecNum} {s t : State} (h : interruptEntry n s = .next t) :
    t.ie = false := by
  obtain ⟨s₁, -, h⟩ := andThen_eq_next.mp h
  obtain ⟨s₂, -, h⟩ := andThen_eq_next.mp h
  obtain ⟨⟨v, u⟩, hread, h⟩ := andThen_eq_next.mp h
  obtain ⟨-, -, rfl⟩ := memRead_eq_next.mp hread
  cases h
  exact State.afterRead_ie ..

/-- The return from an interrupt sets IE after its last pop (R232, D22). -/
theorem ie_of_returnFromInterrupt {s t : State} (h : returnFromInterrupt s = .next t) :
    t.ie = true := by
  obtain ⟨s₁, -, h⟩ := andThen_eq_next.mp h
  obtain ⟨p, -, h⟩ := andThen_eq_next.mp h
  cases h
  rfl

/-- EI sets IE (R233, D23). -/
theorem ie_of_exec_ei {s t : State} (h : exec .ei s = .next t) : t.ie = true := by
  cases h
  rfl

/-- DI clears IE (R234, D23). -/
theorem ie_of_exec_di {s t : State} (h : exec .di s = .next t) : t.ie = false := by
  cases h
  rfl

/-- Settles O37, from the check's equation in each case of IntSource's answer and the writers of IE. -/
theorem interruptAcceptedWhenRequestedAndEnabled :
    Obligations.InterruptAcceptedWhenRequestedAndEnabled := by
  refine ⟨fun s => interruptCheck_without_check, fun s hint hrun =>
    ⟨interruptCheck_of_no_answer hint hrun, fun later => interruptCheck_of_no_request hint hrun,
      fun n later hreq => ?_⟩,
    fun s t => ⟨ie_of_exec_ei, ie_of_returnFromInterrupt, ie_of_exec_di, fun n => ie_of_interruptEntry⟩⟩
  rw [interruptCheck_of_request hint hrun hreq]
  exact ⟨fun hie => if_pos hie, fun hie => if_neg (by simp [hie])⟩

end Sys2Proof.Machine
end

section
/-! PROOFS. Encoding and decoding are inverse to each other (spec R82~R84, R91~R94, R101). -/

namespace Sys2Proof

namespace Laws.Classified

/-- Every instruction is found again in its own word. -/
theorem all : ∀ i : Instr, Statement i
  | .mov s d => mov s d
  | .add s d => add s d
  | .addc s d => addc s d
  | .sub s d => sub s d
  | .subb s d => subb s d
  | .and s d => and s d
  | .or s d => or s d
  | .xor s d => xor s d
  | .cmp s d => cmp s d
  | .test s d => test s d
  | .sar d => sar d
  | .shl d => shl d
  | .shr d => shr d
  | .rol d => rol d
  | .ror d => ror d
  | .rcl d => rcl d
  | .rcr d => rcr d
  | .jc d => jc d
  | .jnc d => jnc d
  | .jo d => jo d
  | .jno d => jno d
  | .jz d => jz d
  | .jnz d => jnz d
  | .js d => js d
  | .jns d => jns d
  | .jmp d => jmp d
  | .inc d => inc d
  | .dec d => dec d
  | .not d => not d
  | .push d => push d
  | .pop d => pop d
  | .call d => call d
  | .halt => halt
  | .nop => nop
  | .ret => ret
  | .reti => reti
  | .ei => ei
  | .di => di

end Laws.Classified

/-- The word of a well-formed instruction decodes to it (R101). -/
theorem decodeWord_encodeWord {c : Config} {i : Instr} (h : i.WellFormed c = true) :
    decodeWord c (encodeWord i) = .ok i :=
  decodeWord_eq_ok.mpr ⟨(Laws.Classified.all i).2, h⟩

/-- Settles O2: the first word decodes to the instruction, and the constants it calls for are the
words that follow. -/
theorem decodeOfEncodeIsIdentity : Obligations.DecodeOfEncodeIsIdentity := by
  rintro c ⟨i, consts⟩ rest h
  obtain ⟨hi, hlen⟩ := Bool.and_eq_true_iff.mp h
  have hlen : consts.length = i.constCount := beq_iff_eq.mp hlen
  simp [encode, decode, decodeWord_encodeWord hi, ← hlen]

/-! The canonical word is the word assembled from the operands that decoding finds. -/

/-- The mode of a decoded address code is the mode field (R87). -/
@[simp] theorem encodeMode_decodeOperand (m r : BitVec 3) : encodeMode (decodeOperand m r) = m := by
  revert m r
  decide

/-- Whether a mode uses no register (R91), as the canonical word asks it. -/
def unusedReg (m : BitVec 3) : Bool := m == 3 || m == 4 || m == 5 || m == 7

/-- The register of a decoded address code is the register field, or 000 in the modes that use none
(R91, D7). -/
theorem encodeReg_decodeOperand (m r : BitVec 3) :
    encodeReg (decodeOperand m r) = if unusedReg m then 0 else r := by
  revert m r
  decide

/-- The opcode of format D as a number (R82). -/
theorem fieldOp_eq (w : Word) : fieldOp w = w.toNat / 4096 := by
  have := w.isLt
  simp only [fieldOp, BitVec.extractLsb'_toNat, Nat.shiftRight_eq_div_pow]
  omega

/-- The opcode of format S as a number (R83). -/
theorem fieldSop_eq (w : Word) : fieldSop w = w.toNat / 64 % 64 := by
  simp only [fieldSop, BitVec.extractLsb'_toNat, Nat.shiftRight_eq_div_pow, Nat.reducePow]

/-- The opcode of format Z as a number (R84). -/
theorem fieldZop_eq (w : Word) : fieldZop w = w.toNat % 64 := by
  simp only [fieldZop, BitVec.extractLsb'_toNat, Nat.shiftRight_zero, Nat.reducePow]

/-- Format D: the first four bits are an opcode (R85). -/
theorem wordFormat_eq_double {w : Word} : wordFormat w = .double ↔ fieldOp w ≠ 0 := by
  unfold wordFormat
  split_ifs <;> simp_all

/-- Format S: the next six bits are an opcode (R85). -/
theorem wordFormat_eq_single {w : Word} : wordFormat w = .single ↔ fieldOp w = 0 ∧ fieldSop w ≠ 0 := by
  unfold wordFormat
  split_ifs <;> simp_all

/-- Format Z: the last six bits are an opcode (R85). -/
theorem wordFormat_eq_zero {w : Word} : wordFormat w = .zero ↔ fieldOp w = 0 ∧ fieldSop w = 0 := by
  unfold wordFormat
  split_ifs <;> simp_all

/-- In format D the canonical word keeps the opcode and both address codes. -/
theorem canonicalWord_double {w : Word} (h : wordFormat w = .double) :
    Machine.canonicalWord w = assembleD (w.extractLsb' 12 4) (decodeOperand (fieldMs w) (fieldRs w))
      (decodeOperand (fieldMd w) (fieldRd w)) := by
  have hc : Machine.canonicalWord w = w &&& ~~~((if unusedReg (fieldMs w) then 0x01C0 else 0) |||
      (if unusedReg (fieldMd w) then 0x0007 else 0)) := by
    simp [Machine.canonicalWord, h, unusedReg]
  rw [hc, assembleD, encodeReg_decodeOperand, encodeReg_decodeOperand, encodeMode_decodeOperand,
    encodeMode_decodeOperand]
  apply BitVec.eq_of_getLsbD_eq
  intro k hk
  cases unusedReg (fieldMs w) <;> cases unusedReg (fieldMd w) <;>
  · simp only [fieldMs, fieldRs, fieldMd, fieldRd, BitVec.getLsbD_append]
    interval_cases k <;> simp

/-- In format S the canonical word keeps the opcode and the address code. -/
theorem canonicalWord_single {w : Word} (h : wordFormat w = .single) :
    Machine.canonicalWord w = assembleS (w.extractLsb' 6 6) (decodeOperand (fieldMd w) (fieldRd w)) := by
  have hc : Machine.canonicalWord w = w &&& ~~~(if unusedReg (fieldMd w) then 0x0007 else 0) := by
    simp [Machine.canonicalWord, h, unusedReg]
  have hop : w.extractLsb' 12 4 = 0b0000#4 :=
    BitVec.eq_of_toNat_eq (x := w.extractLsb' 12 4) (wordFormat_eq_single.mp h).1
  rw [hc, assembleS, encodeReg_decodeOperand, encodeMode_decodeOperand, ← hop]
  apply BitVec.eq_of_getLsbD_eq
  intro k hk
  cases unusedReg (fieldMd w) <;>
  · simp only [fieldMd, fieldRd, BitVec.getLsbD_append]
    interval_cases k <;> simp

/-- In format Z the canonical word is the word: it has no register field. -/
theorem canonicalWord_zero {w : Word} (h : wordFormat w = .zero) : Machine.canonicalWord w = w := by
  have hc : Machine.canonicalWord w = w &&& ~~~(0 ||| 0) := by simp [Machine.canonicalWord, h]
  rw [hc]
  exact BitVec.and_allOnes

/-- The register fields of modes that use no register decide nothing (R91, D7). -/
theorem instrOfWord_canonicalWord (w : Word) : instrOfWord (Machine.canonicalWord w) = instrOfWord w := by
  cases hf : wordFormat w with
  | double =>
    obtain ⟨h1, h2, h3, h4, h5⟩ := assembleD_fields (w.extractLsb' 12 4)
      (decodeOperand (fieldMs w) (fieldRs w)) (decodeOperand (fieldMd w) (fieldRd w))
    rw [← canonicalWord_double hf] at h1 h2 h3 h4 h5
    change _ = fieldOp w at h1
    have hf' : wordFormat (Machine.canonicalWord w) = .double := by
      rw [wordFormat_eq_double, h1]; exact wordFormat_eq_double.mp hf
    simp only [instrOfWord, hf, hf', h1, h2, h3, h4, h5, decodeOperand_encode]
  | single =>
    obtain ⟨h1, h2, h3, h4⟩ := assembleS_fields (w.extractLsb' 6 6) (decodeOperand (fieldMd w) (fieldRd w))
    rw [← canonicalWord_single hf] at h1 h2 h3 h4
    change _ = fieldSop w at h2
    have hf' : wordFormat (Machine.canonicalWord w) = .single := by
      rw [wordFormat_eq_single, h1, h2]; exact ⟨rfl, (wordFormat_eq_single.mp hf).2⟩
    simp only [instrOfWord, hf, hf', h2, h3, h4, decodeOperand_encode]
  | zero => rw [canonicalWord_zero hf]

/-- An instruction of the format D map is encoded with the opcode it was found under (R92, R101). -/
theorem encodeWord_of_doubleOp {op : BitVec 4} {mk : Operand → Operand → Instr}
    (h : doubleOp op.toNat = some mk) (src dst : Operand) : encodeWord (mk src dst) = assembleD op src dst := by
  unfold doubleOp at h
  split at h <;> cases h <;>
    exact congrArg (assembleD · src dst) (BitVec.eq_of_toNat_eq (by simp only [*]; rfl))

/-- An instruction of the format S map is encoded with the opcode it was found under (R93, R101). -/
theorem encodeWord_of_singleOp {sop : BitVec 6} {mk : Operand → Instr}
    (h : singleOp sop.toNat = some mk) (dst : Operand) : encodeWord (mk dst) = assembleS sop dst := by
  unfold singleOp at h
  split at h <;> cases h <;>
    exact congrArg (assembleS · dst) (BitVec.eq_of_toNat_eq (by simp only [*]; rfl))

/-- An instruction of the format Z map is encoded with the opcode it was found under (R94, R101). -/
theorem encodeWord_of_zeroOp {zop : BitVec 6} {i : Instr} (h : zeroOp zop.toNat = some i) :
    encodeWord i = assembleZ zop := by
  unfold zeroOp at h
  split at h <;> cases h <;>
    exact congrArg assembleZ (BitVec.eq_of_toNat_eq (by simp only [*]; rfl))

/-- In format Z the word is its six-bit opcode after ten zeros (R84, R85). -/
theorem eq_assembleZ_of_zero {w : Word} (h : wordFormat w = .zero) : w = assembleZ (w.extractLsb' 0 6) := by
  obtain ⟨hop, hsop⟩ := wordFormat_eq_zero.mp h
  rw [fieldOp_eq] at hop
  rw [fieldSop_eq] at hsop
  have hz : (assembleZ (w.extractLsb' 0 6)).toNat = fieldZop w := by
    simp only [assembleZ, BitVec.toNat_append, BitVec.toNat_ofNat, Nat.zero_mod, Nat.zero_shiftLeft,
      Nat.zero_or, fieldZop]
  apply BitVec.eq_of_toNat_eq
  rw [hz, fieldZop_eq]
  omega

/-- What the opcode map gives a word is encoded as its canonical word. -/
theorem encodeWord_of_instrOfWord {w : Word} {i : Instr} (h : instrOfWord w = some i) :
    encodeWord i = Machine.canonicalWord w := by
  obtain ⟨hf, mk, hmk, rfl⟩ | ⟨hf, mk, hmk, rfl⟩ | ⟨hf, hz⟩ := instrOfWord_cases h
  · rw [canonicalWord_double hf, encodeWord_of_doubleOp hmk]
  · rw [canonicalWord_single hf, encodeWord_of_singleOp hmk]
  · rw [canonicalWord_zero hf, encodeWord_of_zeroOp hz, ← eq_assembleZ_of_zero hf]

/-- Settles O3: the canonical word is assembled from the operands that decoding finds, so both words
have the same instruction, and it is encoded as the canonical one. -/
theorem decodedWordEncodesToCanonicalWord : Obligations.DecodedWordEncodesToCanonicalWord := by
  refine fun c w => ⟨?_, fun i h => ?_⟩
  · simp only [decodeWord, instrOfWord_canonicalWord]
  · obtain ⟨hi, hwf⟩ := decodeWord_eq_ok.mp h
    exact ⟨hwf, encodeWord_of_instrOfWord hi⟩

/-! Which words are rejected, and why. -/

/-- A word is rejected as reserved when its opcode is unassigned or its module absent (R95, R98). -/
theorem decodeWord_eq_reserved {c : Config} {w : Word} :
    decodeWord c w = .error .reservedEncoding ↔ ∀ i, instrOfWord w = some i → c.has i.module = false := by
  unfold decodeWord
  cases instrOfWord w with
  | none => simp
  | some i => cases hm : c.has i.module <;> cases hd : i.dstLegal <;> simp [hm, hd]

/-- An assigned word of a present module is rejected when its destination is immediate (R96). -/
theorem decodeWord_eq_immediate {c : Config} {w : Word} :
    decodeWord c w = .error .immediateDestination ↔
      ∃ i, instrOfWord w = some i ∧ c.has i.module = true ∧ i.dst? = some .imm := by
  have hlegal (i : Instr) : i.dstLegal = false ↔ i.dst? = some .imm := by simp [Instr.dstLegal]
  unfold decodeWord
  cases instrOfWord w with
  | none => simp
  | some i => cases hm : c.has i.module <;> cases hd : i.dstLegal <;> simp [hm, hd, ← hlegal]

/-- The full machine has every module. -/
theorem full_has (m : Module) : Config.full.has m = true := by cases m <;> rfl

/-- The assigned opcodes of format D are 0001 to 1010 (R92). -/
theorem doubleOp_eq_none {n : Nat} : doubleOp n = none ↔ n = 0 ∨ 11 ≤ n := by
  unfold doubleOp
  split <;> simp
  simp only [imp_false] at *
  omega

/-- The assigned opcodes of format S (R93). -/
theorem singleOp_eq_none {n : Nat} :
    singleOp n = none ↔ n = 0 ∨ (20 ≤ n ∧ n ≤ 23) ∨ 27 ≤ n := by
  unfold singleOp
  split <;> simp
  simp only [imp_false] at *
  omega

/-- The assigned opcodes of format Z are 000000 to 000101 (R94). -/
theorem zeroOp_eq_none {n : Nat} : zeroOp n = none ↔ 6 ≤ n := by
  unfold zeroOp
  split <;> simp
  simp only [imp_false] at *
  omega

/-- The four ranges of unassigned words (R95). -/
theorem instrOfWord_eq_none {w : Word} : instrOfWord w = none ↔
    0xB000 ≤ w.toNat ∨ (0x0500 ≤ w.toNat ∧ w.toNat ≤ 0x05FF) ∨
      (0x06C0 ≤ w.toNat ∧ w.toNat ≤ 0x0FFF) ∨ (0x0006 ≤ w.toNat ∧ w.toNat ≤ 0x003F) := by
  have hw := w.isLt
  cases hf : wordFormat w with
  | double =>
    have hop := wordFormat_eq_double.mp hf
    simp only [instrOfWord, hf, Option.map_eq_none_iff, doubleOp_eq_none, fieldOp_eq] at hop ⊢
    omega
  | single =>
    obtain ⟨hop, hsop⟩ := wordFormat_eq_single.mp hf
    simp only [instrOfWord, hf, Option.map_eq_none_iff, singleOp_eq_none, fieldOp_eq, fieldSop_eq] at hop hsop ⊢
    omega
  | zero =>
    obtain ⟨hop, hsop⟩ := wordFormat_eq_zero.mp hf
    simp only [instrOfWord, hf, zeroOp_eq_none, fieldOp_eq, fieldSop_eq, fieldZop_eq] at hop hsop ⊢
    omega

/-- A decoded address code is immediate exactly in mode 011 (R87). -/
theorem decodeOperand_eq_imm {m r : BitVec 3} : decodeOperand m r = .imm ↔ m = 0b011 := by
  revert m r
  decide

namespace Machine

/-- A word that is fetched and not decoded ends the step with the decoder's reason (R110). -/
theorem step_of_illegal_word {s t : State} {w : Word} {e : Illegal} (hrun : s.halted = false)
    (hw : fetchWord s = .next (w, t)) (he : decodeWord s.cfg w = .error e) :
    step s = .refused (match e with
      | .reservedEncoding => .reservedEncoding
      | .immediateDestination => .immediateDestination) := by
  simp only [step, hrun, fetchInstr, hw, he, andThen_next]
  cases e <;> rfl

end Machine

/-- Settles O4: on the full machine a word is rejected as reserved exactly when the opcode map has
nothing for it, and the maps leave out four ranges. -/
theorem reservedEncodingsAreRefused : Obligations.ReservedEncodingsAreRefused := by
  refine ⟨fun w => ?_, fun s t w hrun hw he => Machine.step_of_illegal_word hrun hw he⟩
  rw [decodeWord_eq_reserved, ← instrOfWord_eq_none]
  simp [full_has, Option.eq_none_iff_forall_ne_some]

/-- Settles O5: the destination of an assigned word is the address code of its last six bits. -/
theorem immediateDestinationIsRefused : Obligations.ImmediateDestinationIsRefused := by
  refine ⟨fun c w => ?_, fun s t w hrun hw he => Machine.step_of_illegal_word hrun hw he⟩
  rw [decodeWord_eq_immediate]
  refine exists_congr fun i => and_congr_right fun hi => and_congr_right fun _ => ?_
  rw [(operands_of_instrOfWord hi).2]
  by_cases hz : wordFormat w = .zero <;> simp [hz, decodeOperand_eq_imm]

/-- Settles O6: the presence of the module is the only part the configuration plays in decoding. -/
theorem absentModulesRejectTheirInstructions : Obligations.AbsentModulesRejectTheirInstructions := by
  intro c w i h
  obtain ⟨hi, hwf⟩ := decodeWord_eq_ok.mp h
  have hd : i.dstLegal = true := (Bool.and_eq_true_iff.mp hwf).2
  have hc : decodeWord c w = if c.has i.module then .ok i else .error .reservedEncoding := by
    cases hm : c.has i.module <;> simp [decodeWord, hi, hm, hd]
  rw [hc]
  cases i.module <;> rfl

/-- Settles O1: thirteen words looked up. -/
theorem tabulatedWordsDecode : Obligations.TabulatedWordsDecode := by
  unfold Obligations.TabulatedWordsDecode
  decide

end Sys2Proof
end

section
/-! PROOFS. How the next micro-address is formed (spec R287) and where the branches go in the allocation
that the source shows (spec R288). -/

namespace Sys2Proof

/-- A word with an instruction of the format S map has that instruction's opcode (R83, R93). -/
theorem fields_of_singleOp {sop : BitVec 6} {mk : Operand → Instr} (hop : singleOp sop.toNat = some mk)
    {w : Word} {d : Operand} (h : instrOfWord w = some (mk d)) : fieldOp w = 0 ∧ fieldSop w = sop.toNat := by
  obtain ⟨hsrc, hdst⟩ := operands_of_singleOp hop d
  have hf : wordFormat w = .single := by
    rw [← format_of_instrOfWord h, Instr.format, hsrc, hdst]
  have he : assembleS sop d = assembleS (w.extractLsb' 6 6) (decodeOperand (fieldMd w) (fieldRd w)) := by
    rw [← canonicalWord_single hf, ← encodeWord_of_instrOfWord h, encodeWord_of_singleOp hop]
  refine ⟨(wordFormat_eq_single.mp hf).1, ?_⟩
  rw [← (assembleS_fields sop d).2.1, he, (assembleS_fields _ _).2.1, fieldSop]

namespace Machine

/-- The condition that three opcode bits `ffn` select: the flag `ff` is not `n` (R97, R202). -/
def ffnCondition (k : BitVec 3) (p : Psw) : Bool :=
  (match k.getLsbD 2, k.getLsbD 1 with
    | false, false => p.cf
    | false, true => p.of
    | true, false => p.zf
    | true, true => p.sf) == !(k.getLsbD 0)

/-- The controller takes `ffn` from `ir[8:6]` (R97). -/
theorem opcodeCondition_eq (w : Word) (p : Psw) :
    opcodeCondition w p = ffnCondition (w.extractLsb' 6 3) p := by
  have hbits : w.extractLsb' 7 2 = BitVec.ofBool (w.getLsbD 8) ++ BitVec.ofBool (w.getLsbD 7) := by
    apply BitVec.eq_of_getLsbD_eq
    intro k hk
    simp only [BitVec.getLsbD_append]
    interval_cases k <;> simp
  have hne (x y : Bool) : (x != y) = (x == !y) := by cases x <;> cases y <;> rfl
  simp only [opcodeCondition, ffnCondition, hbits, hne, BitVec.getLsbD_extractLsb']
  cases w.getLsbD 8 <;> cases w.getLsbD 7 <;> rfl

/-- The conditional jumps of the table stand in the order of their opcodes 001ffn, and each tests the
condition `ffn` (R97, R202). -/
theorem jumpTable_ffn (k : Fin 8) :
    singleOp (0b001#3 ++ BitVec.ofFin (w := 3) k).toNat = some (jumpTable.tail[k]).1 ∧
      ∀ p, ffnCondition (BitVec.ofFin (w := 3) k) p = true ↔ (jumpTable.tail[k]).2 p := by
  fin_cases k <;> exact ⟨rfl, fun p => by simp [ffnCondition, jumpTable]⟩

/-- Each conditional jump of the table has an opcode 001ffn that selects its condition. -/
theorem ffn_of_jumpTable {e : (Operand → Instr) × (Psw → Prop)} (he : e ∈ jumpTable.tail) :
    ∃ k : BitVec 3, singleOp (0b001#3 ++ k).toNat = some e.1 ∧ ∀ p, ffnCondition k p = true ↔ e.2 p := by
  obtain ⟨k, hk, rfl⟩ := List.mem_iff_getElem.mp he
  exact ⟨BitVec.ofFin (w := 3) ⟨k, hk⟩, jumpTable_ffn ⟨k, hk⟩⟩

/-- A word with the opcode 001ffn in format S has `ir[15:9]` = 0000001 and `ffn` in `ir[8:6]` (R97). -/
theorem bits_of_ffn {w : Word} {k : BitVec 3} (hop : fieldOp w = 0)
    (hsop : fieldSop w = (0b001#3 ++ k).toNat) :
    w.extractLsb' 9 7 = 0b0000001 ∧ w.extractLsb' 6 3 = k := by
  have hk : ∀ k : BitVec 3, (0b001#3 ++ k).toNat = 8 + k.toNat := by decide
  have hlt := k.isLt
  rw [fieldOp_eq] at hop
  rw [fieldSop_eq, hk] at hsop
  constructor <;> apply BitVec.eq_of_toNat_eq <;>
    simp [Nat.shiftRight_eq_div_pow] <;> omega

/-- Bits outside the mask stay those of NA. -/
theorem extractLsb'_replaceBits {na mask test : BitVec 9} {lo len : Nat} (h : mask.extractLsb' lo len = 0#len) :
    (replaceBits na mask test).extractLsb' lo len = na.extractLsb' lo len := by
  apply BitVec.eq_of_getLsbD_eq
  intro k hk
  have hmask : mask.getLsbD (lo + k) = false := by
    simpa [hk] using congrArg (BitVec.getLsbD · k) h
  simp [hk, getLsbD_replaceBits, hmask]

/-! One equation per branch mode that the statements ask for (R287); BM = 2 has its own lemma. -/

/-- BM = 1 replaces µAR7 of NA by INTR·IE. -/
theorem nextMicroAddr_interrupt {m : MicroInstr} (hm : m.bm = 1) (t : MicroTests) (n : Nat) :
    nextMicroAddr m t n =
      some (replaceBits m.na 0x080 ((BitVec.ofBool (t.intr && t.ie)).zeroExtend 9 <<< 7)) := by
  simp only [nextMicroAddr, hm]
  rfl

/-- BM = 3 replaces µAR0 of NA by the condition. -/
theorem nextMicroAddr_condition {m : MicroInstr} (hm : m.bm = 3) (t : MicroTests) (n : Nat) :
    ∃ a, nextMicroAddr m t n = some a ∧ a.getLsbD 0 = conditionTest t.ir t.psw n ∧
      a.extractLsb' 1 8 = m.na.extractLsb' 1 8 := by
  refine ⟨_, by simp only [nextMicroAddr, hm]; rfl, ?_, extractLsb'_replaceBits (by decide)⟩
  rw [getLsbD_replaceBits]
  simp

/-- BM = 4 goes to the entry of the opcode. -/
theorem nextMicroAddr_opcode {m : MicroInstr} (hm : m.bm = 4) (t : MicroTests) (n : Nat) :
    nextMicroAddr m t n = some (opcodeEntry t.ir) := by
  simp only [nextMicroAddr, hm]
  rfl

/-- BM = 5 replaces µAR2~µAR0 of NA by the mode. -/
theorem nextMicroAddr_mode {m : MicroInstr} (hm : m.bm = 5) (t : MicroTests) (n : Nat) :
    nextMicroAddr m t n = some (replaceBits m.na 0x007 (t.mode.zeroExtend 9)) := by
  simp only [nextMicroAddr, hm]
  rfl

/-- BM = 7 replaces µAR0 of NA by the test of `Md` against register mode. -/
theorem nextMicroAddr_register {m : MicroInstr} (hm : m.bm = 7) (t : MicroTests) (n : Nat) :
    nextMicroAddr m t n =
      some (replaceBits m.na 0x001 ((BitVec.ofBool (t.ir.extractLsb' 3 3 != 0)).zeroExtend 9)) := by
  have hmd : t.ir.extractLsb' 3 3 =
      BitVec.ofBool (t.ir.getLsbD 5) ++ BitVec.ofBool (t.ir.getLsbD 4) ++ BitVec.ofBool (t.ir.getLsbD 3) := by
    apply BitVec.eq_of_getLsbD_eq
    intro k hk
    simp only [BitVec.getLsbD_append]
    interval_cases k <;> simp
  simp only [nextMicroAddr, hm, hmd]
  cases t.ir.getLsbD 5 <;> cases t.ir.getLsbD 4 <;> cases t.ir.getLsbD 3 <;> rfl

/-- Settles O9: each branch mode replaces the bits of NA it names by its test. -/
theorem microAddressFollowsTheBranchMode : Obligations.MicroAddressFollowsTheBranchMode := by
  refine fun m t n => ⟨fun hm => ?fixed, fun hm => ?interrupt, fun hm => ?operandCount,
    fun hm => ?condition, fun hm => ?opcode, fun hm => ?mode, fun hm => ?register⟩
  case fixed => simp [nextMicroAddr, hm]
  case interrupt =>
    refine ⟨_, nextMicroAddr_interrupt hm t n, ?_, extractLsb'_replaceBits (by decide), ?_⟩
    · simp
    · rw [getLsbD_replaceBits]
      cases t.intr && t.ie <;> rfl
  case operandCount =>
    obtain ⟨test, ha, hd, hs, hz⟩ := nextMicroAddr_operandCount hm t n
    refine ⟨_, ha, extractLsb'_replaceBits (by decide), fun hf => ?_, fun hf => ?_, fun hf => ?_⟩
    · exact (getLsbD_replaceBits ..).trans (hd hf)
    · simp [hs hf]
    · simp [hz hf]
  case condition =>
    obtain ⟨a, ha, hbit, hsame⟩ := nextMicroAddr_condition hm t n
    refine ⟨a, ha, hsame, fun e he d hd => ?_⟩
    obtain ⟨k, hk, hcond⟩ := ffn_of_jumpTable he
    obtain ⟨hop, hsop⟩ := fields_of_singleOp hk hd
    obtain ⟨h7, h3⟩ := bits_of_ffn hop hsop
    rw [hbit, conditionTest_eq h7, opcodeCondition_eq, h3, hcond]
  case opcode => exact ⟨_, nextMicroAddr_opcode hm t n⟩
  case mode =>
    refine ⟨_, nextMicroAddr_mode hm t n, extractLsb'_replaceBits (by decide), ?_⟩
    apply BitVec.eq_of_getLsbD_eq
    intro k hk
    simp only [BitVec.getLsbD_extractLsb', getLsbD_replaceBits]
    interval_cases k <;> simp
  case register =>
    refine ⟨_, nextMicroAddr_register hm t n, extractLsb'_replaceBits (by decide), ?_⟩
    rw [getLsbD_replaceBits]
    by_cases hmd : t.ir.extractLsb' 3 3 = 0 <;> simp [hmd]

/-- The entries of format D are 071H~07FH (R288). -/
theorem doubleEntries_at : ∀ op : BitVec 4, op ≠ 0 →
    (0x070 + op.zeroExtend 9 : BitVec 9).toNat = 0x070 + op.toNat ∧
      microProgramAt (0x070 + op.zeroExtend 9) = some .doubleEntries := by decide

/-- The entries of format S are 041H~04FH (R288). -/
theorem singleEntries_at : ∀ k : Fin 15,
    microProgramAt (0x041 + BitVec.ofNat 9 k.val) = some .singleEntries ∧
      0x041 ≤ (0x041 + BitVec.ofNat 9 k.val : BitVec 9).toNat ∧
      (0x041 + BitVec.ofNat 9 k.val : BitVec 9).toNat ≤ 0x04F := by decide

/-- The entries of format Z are 060H~06FH (R288). -/
theorem zeroEntries_at : ∀ z : BitVec 4,
    (0x060 + z.zeroExtend 9 : BitVec 9).toNat = 0x060 + z.toNat ∧
      microProgramAt (0x060 + z.zeroExtend 9) = some .zeroEntries := by decide

/-- Settles O52: the entries lie where the allocation has their microprograms, and BM = 2 from 004H
gives 004H or 005H, 006H, 007H. -/
theorem opcodeBranchFollowsTheAllocation : Obligations.OpcodeBranchFollowsTheAllocation := by
  refine fun m t n => ⟨fun hm => ⟨_, nextMicroAddr_opcode hm t n, fun hf => ?_, fun hf => ?_, fun hf => ?_⟩,
    fun hm hna => ?_⟩
  · have hop : t.ir.extractLsb' 12 4 ≠ 0 := fun h0 =>
      wordFormat_eq_double.mp hf (congrArg BitVec.toNat h0)
    simpa only [opcodeEntry, hf] using doubleEntries_at _ hop
  · have hentry {ir : Word} (hir : wordFormat ir = .single) :
        opcodeEntry ir = 0x041 + BitVec.ofNat 9 (Config.singleEntry (ir.extractLsb' 6 6)).val := by
      simp only [opcodeEntry, hir]
    obtain ⟨hat, hlo, hhi⟩ := singleEntries_at (Config.singleEntry (t.ir.extractLsb' 6 6))
    rw [hentry hf]
    refine ⟨hat, hlo, hhi, fun t' n' hf' hsop => ?_⟩
    rw [nextMicroAddr_opcode hm, hentry hf', hsop]
  · simpa only [opcodeEntry, hf] using zeroEntries_at _
  · cases hf : wordFormat t.ir with
    | double =>
      have ha : nextMicroAddr m t n =
          some (replaceBits 0x004 0x003 ((BitVec.ofBool (Config.freeBit n)).zeroExtend 9)) := by
        simp only [nextMicroAddr, hm, hf, hna]
        rfl
      rw [ha]
      cases Config.freeBit n <;> rfl
    | single =>
      obtain ⟨test, ha, -, hs, -⟩ := nextMicroAddr_operandCount hm t n
      rw [ha, hna, hs hf]
      rfl
    | zero =>
      obtain ⟨test, ha, -, -, hz⟩ := nextMicroAddr_operandCount hm t n
      rw [ha, hna, hz hf]
      rfl

/-- Settles O38: only bit 7 of 000H is replaced, so the branch goes to 080H or to 000H. -/
theorem interruptMicroBranchTestsIntrAndIe : Obligations.InterruptMicroBranchTestsIntrAndIe := by
  intro m t n hm hna
  rw [nextMicroAddr_interrupt hm, hna]
  cases t.intr <;> cases t.ie <;> rfl

end Machine
end Sys2Proof
end

section
/-! PROOFS. Results and flags by exact arithmetic (spec R150~R152, R180~R187): the machine's formulas, which
work on bits, against sums, differences, halves, doubles and library rotations. -/

namespace Sys2Proof.Machine

/-- Bit 15 is the sign (R27). -/
theorem getLsbD_15_eq (x : Word) : x.getLsbD 15 = decide (x.toInt < 0) := by
  rw [← BitVec.msb_eq_toInt, BitVec.msb_eq_getLsbD_last]

/-- A word is 0 exactly when its number is. -/
theorem beq_zero_eq (x : Word) : (x == 0) = decide (x.toNat = 0) := by
  rw [Bool.eq_iff_iff]
  simp [← BitVec.toNat_inj]

/-- The signed value by the unsigned one. -/
theorem toInt_eq (x : Word) : x.toInt = if x.toNat < 32768 then (x.toNat : Int) else x.toNat - 65536 := by
  rw [BitVec.toInt_eq_toNat_cond]
  split <;> split <;> omega

theorem exactSum_toNat (a b : Word) (c : Bool) : (exactSum a b c).toNat = a.toNat + b.toNat + c.toNat := by
  have ha := a.isLt
  have hb := b.isLt
  have hc := Bool.toNat_le c
  simp [exactSum]
  omega

/-- The machine's addition is the exact sum, narrowed, with the flags of the exact sum (R150). -/
theorem addFlags_eq (a b : Word) (c : Bool) (s : State) :
    addFlags a b c s = (sumWord a b c, { s with psw := sumPsw a b c }) := by
  have hsum := exactSum_toNat a b c
  have ha := a.isLt
  have hb := b.isLt
  have hc := Bool.toNat_le c
  have hr : (exactSum a b c).extractLsb' 0 16 = sumWord a b c := by
    apply BitVec.eq_of_toNat_eq
    simp [sumWord, hsum]
  have hcf : (exactSum a b c).getLsbD 16 = decide (65536 ≤ a.toNat + b.toNat + c.toNat) := by
    rw [← hsum]
    exact BitVec.msb_eq_getLsbD_last _ ▸ BitVec.msb_eq_decide _
  have hof : ((decide (a.toInt < 0) == decide (b.toInt < 0)) &&
      (decide ((sumWord a b c).toInt < 0) != decide (a.toInt < 0))) =
      decide (a.toInt + b.toInt + c.toNat < -32768 ∨ 32767 < a.toInt + b.toInt + c.toNat) := by
    have hs : (sumWord a b c).toNat = (a.toNat + b.toNat + c.toNat) % 65536 := by simp [sumWord]
    rw [Bool.eq_iff_iff]
    simp only [toInt_eq, hs, Bool.and_eq_true, beq_iff_eq, bne_iff_ne, ne_eq, decide_eq_decide, decide_eq_true_eq]
    omega
  simp only [addFlags, hr, hcf, sumPsw, getLsbD_15_eq, beq_zero_eq, hof]

theorem diffWord_toNat (a b : Word) (c : Bool) :
    (diffWord a b c).toNat = (a.toNat + 131072 - b.toNat - c.toNat) % 65536 := by
  have hb := b.isLt
  have hc := Bool.toNat_le c
  simp only [diffWord, BitVec.toNat_ofInt]
  omega

/-- The machine's subtraction is the integer difference, narrowed, with the flags of the integer
difference (R151). -/
theorem subFlags_eq (a b : Word) (c : Bool) (s : State) :
    subFlags a b c s = (diffWord a b c, { s with psw := diffPsw a b c }) := by
  have ha := a.isLt
  have hb := b.isLt
  have hc := Bool.toNat_le c
  have hs := diffWord_toNat a b c
  have hr : a - b - bitWord c = diffWord a b c := by
    have hbit : (bitWord c).toNat = c.toNat := by cases c <;> rfl
    apply BitVec.eq_of_toNat_eq
    rw [hs, BitVec.toNat_sub, BitVec.toNat_sub, hbit]
    omega
  have hcf : decide (a.toNat < b.toNat + c.toNat) = decide ((a.toNat : Int) - b.toNat - c.toNat < 0) := by
    rw [decide_eq_decide]
    omega
  have hof : ((decide (a.toInt < 0) != decide (b.toInt < 0)) &&
      (decide ((diffWord a b c).toInt < 0) != decide (a.toInt < 0))) =
      decide (a.toInt - b.toInt - c.toNat < -32768 ∨ 32767 < a.toInt - b.toInt - c.toNat) := by
    rw [Bool.eq_iff_iff]
    simp only [toInt_eq, hs, Bool.and_eq_true, bne_iff_ne, ne_eq, decide_eq_decide, decide_eq_true_eq]
    omega
  simp only [subFlags, hr, hcf, diffPsw, getLsbD_15_eq, beq_zero_eq, hof]

/-- The flags of logic are the result's SF and ZF and two free bits (R152). -/
theorem logicFlags_eq (r : Word) (s : State) :
    logicFlags r s =
      (r, { s.drew 2 with psw := resultPsw r (Config.freeBit (s.draws + 1)) (Config.freeBit s.draws) }) := by
  simp only [logicFlags, resultPsw, getLsbD_15_eq, beq_zero_eq]
  rfl

/-! The one-bit shifts and rotates (R181~R187). -/

theorem getLsbD_0_eq (v : Word) : v.getLsbD 0 = decide (v.toNat % 2 = 1) := by
  rw [BitVec.getLsbD, Nat.testBit_zero]

theorem getLsbD_15_eq_le (v : Word) : v.getLsbD 15 = decide (32768 ≤ v.toNat) :=
  BitVec.msb_eq_getLsbD_last v ▸ BitVec.msb_eq_decide v

/-- Joining two words is a sum of numbers. -/
theorem toNat_append_eq {m n : Nat} (x : BitVec m) (y : BitVec n) :
    (x ++ y).toNat = x.toNat * 2 ^ n + y.toNat := by
  rw [BitVec.toNat_append, ← Nat.shiftLeft_add_eq_or_of_lt y.isLt, Nat.shiftLeft_eq]

/-- A word moved down with a bit brought in at the top. -/
theorem toNat_ofBool_append (b : Bool) (v : Word) :
    (BitVec.ofBool b ++ v.extractLsb' 1 15 : BitVec 16).toNat = v.toNat / 2 + 32768 * b.toNat := by
  have hv := v.isLt
  rw [toNat_append_eq, BitVec.toNat_ofBool, BitVec.extractLsb'_toNat, Nat.shiftRight_eq_div_pow]
  omega

/-- A word moved up with a bit brought in at the bottom. -/
theorem toNat_append_ofBool (b : Bool) (v : Word) :
    (v.extractLsb' 0 15 ++ BitVec.ofBool b : BitVec 16).toNat = (2 * v.toNat + b.toNat) % 65536 := by
  have hv := v.isLt
  have hb := Bool.toNat_le b
  rw [toNat_append_eq, BitVec.toNat_ofBool, BitVec.extractLsb'_toNat, Nat.shiftRight_zero]
  omega

theorem sarWord_eq (v : Word) : sarWord v = BitVec.ofInt 16 (v.toInt / 2) := by
  have hv := v.isLt
  apply BitVec.eq_of_toNat_eq
  rw [sarWord, toNat_ofBool_append, getLsbD_15_eq_le, BitVec.toNat_ofInt, toInt_eq]
  by_cases h : 32768 ≤ v.toNat <;> simp [h] <;> omega

theorem shlWord_eq (v : Word) : shlWord v = BitVec.ofNat 16 (2 * v.toNat) :=
  BitVec.eq_of_toNat_eq (toNat_append_ofBool false v)

theorem shrWord_eq (v : Word) : shrWord v = BitVec.ofNat 16 (v.toNat / 2) := by
  have hv := v.isLt
  apply BitVec.eq_of_toNat_eq
  refine (toNat_ofBool_append false v).trans ?_
  rw [BitVec.toNat_ofNat, Bool.toNat_false]
  omega

theorem rclWord_eq (v : Word) (c : Bool) : rclWord v c = BitVec.ofNat 16 (2 * v.toNat + c.toNat) :=
  BitVec.eq_of_toNat_eq (toNat_append_ofBool c v)

theorem rcrWord_eq (v : Word) (c : Bool) :
    rcrWord v c = BitVec.ofNat 16 (v.toNat / 2 + 32768 * c.toNat) := by
  have hv := v.isLt
  have hc := Bool.toNat_le c
  apply BitVec.eq_of_toNat_eq
  rw [rcrWord, toNat_ofBool_append, BitVec.toNat_ofNat]
  omega

theorem rolWord_eq (v : Word) : rolWord v = v.rotateLeft 1 := by
  apply BitVec.eq_of_getLsbD_eq
  intro k hk
  simp only [rolWord, BitVec.getLsbD_append, BitVec.getLsbD_rotateLeft]
  interval_cases k <;> simp

theorem rorWord_eq (v : Word) : rorWord v = v.rotateRight 1 := by
  apply BitVec.eq_of_getLsbD_eq
  intro k hk
  simp only [rorWord, BitVec.getLsbD_append, BitVec.getLsbD_rotateRight]
  interval_cases k <;> simp

end Sys2Proof.Machine
end

section
/-! PROOFS. The 38 instructions by what they do with their operands: a calculation on the destination, a
comparison, a jump, a use of the stack. Each statement about all instructions is a case split over these. -/

namespace Sys2Proof.Machine

/-- A calculation on a word, by exact arithmetic: its result and its flags from the word and the old CF,
the flags also from the number of the next free value, and how many free values it draws. -/
structure Calc where
  result : Word → Bool → Word
  flags : Word → Bool → Nat → Psw
  draws : Nat

/-- The calculation as the machine makes it: the result, and the state with PSW written. -/
def Calc.run (c : Calc) (v : Word) (s : State) : Word × State :=
  (c.result v s.psw.cf, { s.drew c.draws with psw := c.flags v s.psw.cf s.draws })

/-- Adding a word and a bit made of the old CF (R150). -/
def sumCalc (cin : Bool → Bool) (b : Word) : Calc :=
  { result := fun a cf => sumWord a b (cin cf), flags := fun a cf _ => sumPsw a b (cin cf), draws := 0 }

/-- Subtracting a word and a bit made of the old CF (R151). -/
def diffCalc (bin : Bool → Bool) (b : Word) : Calc :=
  { result := fun a cf => diffWord a b (bin cf), flags := fun a cf _ => diffPsw a b (bin cf), draws := 0 }

/-- A bitwise operation (R152). -/
def logicCalc (f : Word → Word) : Calc :=
  { result := fun a _ => f a
    flags := fun a _ n => resultPsw (f a) (Config.freeBit (n + 1)) (Config.freeBit n), draws := 2 }

/-- A one-bit shift or rotate (R180). -/
def shiftCalc (result : Word → Bool → Word) (out : Word → Bool) : Calc :=
  { result := result
    flags := fun a _ n =>
      { cf := out a, of := Config.freeBit (n + 2), sf := Config.freeBit n, zf := Config.freeBit (n + 1) }
    draws := 3 }

/-- What an instruction does with its operands. -/
inductive Shape where
  /-- Copy the source to the destination. -/
  | move (src dst : Operand)
  /-- Calculate on the destination with the source's value, and store. -/
  | update2 (c : Word → Calc) (src dst : Operand)
  /-- Calculate on the destination with the source's value, and keep the flags only. -/
  | observe (c : Word → Calc) (src dst : Operand)
  /-- Calculate on the destination, and store. -/
  | update1 (c : Calc) (dst : Operand)
  /-- Go to the destination's address when the condition holds. -/
  | jump (cond : Psw → Bool) (dst : Operand)
  | push (dst : Operand)
  | pop (dst : Operand)
  | call (dst : Operand)
  | ret
  | reti
  /-- Write IE and `halted` only. -/
  | control (ie : Bool → Bool) (halt : Bool)

/-- The meaning of a shape. -/
def Shape.run (sh : Shape) (s : State) : Res State :=
  match sh with
  | .move src dst => withOperands src dst s fun v l s => writeLoc l v s
  | .update2 c src dst => withOperands src dst s fun v l s => updateLoc l s (c v).run
  | .observe c src dst => withOperands src dst s fun v l s => observeLoc l s (c v).run
  | .update1 c dst => withDst dst s fun l s => updateLoc l s c.run
  | .jump cond dst => jumpWhen cond dst s
  | .push dst => execPush dst s
  | .pop dst => execPop dst s
  | .call dst => execCall dst s
  | .ret => execRet s
  | .reti => returnFromInterrupt s
  | .control ie halt => .next { s with ie := ie s.ie, halted := halt || s.halted }

/-- The shape of each instruction. -/
def shape : Instr → Shape
  | .mov src dst => .move src dst
  | .add src dst => .update2 (sumCalc fun _ => false) src dst
  | .addc src dst => .update2 (sumCalc id) src dst
  | .sub src dst => .update2 (diffCalc fun _ => false) src dst
  | .subb src dst => .update2 (diffCalc id) src dst
  | .and src dst => .update2 (fun v => logicCalc (· &&& v)) src dst
  | .or src dst => .update2 (fun v => logicCalc (· ||| v)) src dst
  | .xor src dst => .update2 (fun v => logicCalc (· ^^^ v)) src dst
  | .cmp src dst => .observe (diffCalc fun _ => false) src dst
  | .test src dst => .observe (fun v => logicCalc (· &&& v)) src dst
  | .sar dst => .update1 (shiftCalc (fun v _ => sarWord v) (·.getLsbD 0)) dst
  | .shl dst => .update1 (shiftCalc (fun v _ => shlWord v) (·.getLsbD 15)) dst
  | .shr dst => .update1 (shiftCalc (fun v _ => shrWord v) (·.getLsbD 0)) dst
  | .rol dst => .update1 (shiftCalc (fun v _ => rolWord v) (·.getLsbD 15)) dst
  | .ror dst => .update1 (shiftCalc (fun v _ => rorWord v) (·.getLsbD 0)) dst
  | .rcl dst => .update1 (shiftCalc rclWord (·.getLsbD 15)) dst
  | .rcr dst => .update1 (shiftCalc rcrWord (·.getLsbD 0)) dst
  | .jmp dst => .jump (fun _ => true) dst
  | .jc dst => .jump (fun p => p.cf) dst
  | .jnc dst => .jump (fun p => !p.cf) dst
  | .jo dst => .jump (fun p => p.of) dst
  | .jno dst => .jump (fun p => !p.of) dst
  | .jz dst => .jump (fun p => p.zf) dst
  | .jnz dst => .jump (fun p => !p.zf) dst
  | .js dst => .jump (fun p => p.sf) dst
  | .jns dst => .jump (fun p => !p.sf) dst
  | .inc dst => .update1 (sumCalc (fun _ => false) 1) dst
  | .dec dst => .update1 (diffCalc (fun _ => false) 1) dst
  | .not dst => .update1 (logicCalc (~~~ ·)) dst
  | .push dst => .push dst
  | .pop dst => .pop dst
  | .call dst => .call dst
  | .halt => .control id true
  | .nop => .control id false
  | .ret => .ret
  | .reti => .reti
  | .ei => .control (fun _ => true) false
  | .di => .control (fun _ => false) false

/-- Every instruction does what its shape says. -/
theorem exec_eq_shape (i : Instr) (s : State) : exec i s = (shape i).run s := by
  cases i with
  | add _ _ | addc _ _ | inc _ =>
    simp only [exec, execAdd, execAddc, execInc, addFlags_eq]
    rfl
  | sub _ _ | subb _ _ | cmp _ _ | dec _ =>
    simp only [exec, execSub, execSubb, execCmp, execDec, subFlags_eq]
    rfl
  | and _ _ | or _ _ | xor _ _ | test _ _ | not _ =>
    simp only [exec, execAnd, execOr, execXor, execTest, execNot, logicFlags_eq]
    rfl
  | _ => rfl

/-! The instructions of each shape, as the statements list them. -/

/-- The single-operand instructions that compute calculate on their destination and store. -/
theorem shape_update1 {mk : Operand → Instr}
    (h : mk ∈ [Instr.inc, .dec, .not, .sar, .shl, .shr, .rol, .ror, .rcl, .rcr]) :
    ∃ c, ∀ dst, shape (mk dst) = .update1 c dst := by
  simp only [List.mem_cons, List.not_mem_nil, or_false] at h
  obtain rfl | rfl | rfl | rfl | rfl | rfl | rfl | rfl | rfl | rfl := h <;> exact ⟨_, fun _ => rfl⟩

/-- ADD, ADDC, SUB, SUBB, AND, OR, XOR calculate on their destination and store. -/
theorem shape_update2 {mk : Operand → Operand → Instr}
    (h : mk ∈ [Instr.add, .addc, .sub, .subb, .and, .or, .xor]) :
    ∃ c, ∀ src dst, shape (mk src dst) = .update2 c src dst := by
  simp only [List.mem_cons, List.not_mem_nil, or_false] at h
  obtain rfl | rfl | rfl | rfl | rfl | rfl | rfl := h <;> exact ⟨_, fun _ _ => rfl⟩

/-- CMP and TEST calculate on their destination and keep the flags. -/
theorem shape_observe {mk : Operand → Operand → Instr} (h : mk ∈ [Instr.cmp, .test]) :
    ∃ c, ∀ src dst, shape (mk src dst) = .observe c src dst := by
  simp only [List.mem_cons, List.not_mem_nil, or_false] at h
  obtain rfl | rfl := h <;> exact ⟨_, fun _ _ => rfl⟩

/-- The nine jumps jump on the condition the table gives them. -/
theorem shape_jump {e : (Operand → Instr) × (Psw → Prop)} (h : e ∈ jumpTable) :
    ∃ cond, (∀ dst, shape (e.1 dst) = .jump cond dst) ∧ ∀ p, cond p = true ↔ e.2 p := by
  simp only [jumpTable, List.mem_cons, List.not_mem_nil, or_false] at h
  obtain rfl | rfl | rfl | rfl | rfl | rfl | rfl | rfl | rfl := h <;>
    exact ⟨_, fun _ => rfl, fun p => by simp⟩

/-- A jump or CALL of an operand has the shape of one. -/
theorem shape_transfer {i : Instr} {d : Operand} (h : i.isTransfer = true) (hd : i.dst? = some d) :
    (∃ cond, shape i = .jump cond d) ∨ shape i = .call d := by
  cases i with
  | jc _ | jnc _ | jo _ | jno _ | jz _ | jnz _ | js _ | jns _ | jmp _ =>
    cases hd
    exact .inl ⟨_, rfl⟩
  | call _ =>
    cases hd
    exact .inr rfl
  | _ => cases h

/-! ## The operand phases as a frame -/

/-- All that the operand phases can change: PC moves past the constants, auto-incremented registers move,
and reads leave their trace (R110~R123). -/
structure PhaseFrame (inc : RegNum → Prop) (k : Nat) (s t : State) : Prop where
  pc : t.pc = s.pc + BitVec.ofNat 16 k
  regs : RegsSameBut s t inc
  sp : t.sp = s.sp
  psw : t.psw = s.psw
  cfg : t.cfg = s.cfg
  control : ControlSame s t
  mem : t.mem = s.mem
  io : ∃ new, t.ioTrace = new ++ s.ioTrace ∧ ∀ a v, IoEvent.write a v ∉ new

/-- Resolving one operand, and reading it. -/
theorem ResolveFrame.phase {o : Operand} {s t : State} (f : ResolveFrame o s t) :
    PhaseFrame (fun n => o = .autoInc n) o.constWords s t where
  pc := f.pc
  regs n hn := by rw [f.reg n, if_neg hn]
  sp := f.sp
  psw := f.psw
  cfg := f.cfg
  control := ⟨f.ie, f.halted, f.ir, f.micro, f.cfg, f.intInputs⟩
  mem := f.mem
  io := f.io

theorem ControlSame.trans {s t u : State} (h1 : ControlSame s t) (h2 : ControlSame t u) :
    ControlSame s u := by
  obtain ⟨a1, a2, a3, a4, a5, a6⟩ := h1
  obtain ⟨b1, b2, b3, b4, b5, b6⟩ := h2
  exact ⟨b1.trans a1, b2.trans a2, b3.trans a3, b4.trans a4, b5.trans a5, b6.trans a6⟩

/-- One phase after another. -/
theorem PhaseFrame.trans {inc inc' : RegNum → Prop} {k k' : Nat} {s t u : State}
    (f : PhaseFrame inc k s t) (g : PhaseFrame inc' k' t u) :
    PhaseFrame (fun n => inc n ∨ inc' n) (k + k') s u where
  pc := by rw [g.pc, f.pc, BitVec.ofNat_add, BitVec.add_assoc]
  regs n hn := (g.regs n fun h => hn (.inr h)).trans (f.regs n fun h => hn (.inl h))
  sp := g.sp.trans f.sp
  psw := g.psw.trans f.psw
  cfg := g.cfg.trans f.cfg
  control := f.control.trans g.control
  mem := g.mem.trans f.mem
  io := io_trans f.io g.io

/-- The frame of a destination (R113). -/
theorem resolveDst_frame {o : Operand} {s t : State} {l : Loc} (h : resolveDst o s = .next (l, t)) :
    ResolveFrame o s t := resolve_frame (resolveDst_eq_next.mp h).2

/-- The frame of both operands (R112). -/
theorem operands_frame {src dst : Operand} {s s₁ t : State} {v : Word} {l : Loc}
    (h1 : readSource src s = .next (v, s₁)) (h2 : resolveDst dst s₁ = .next (l, t)) :
    PhaseFrame (fun n => src = .autoInc n ∨ dst = .autoInc n) (src.constWords + dst.constWords) s t :=
  (readSource_frame h1).phase.trans (resolveDst_frame h2).phase

/-- The frame of both operands when they are ready. -/
theorem OperandsReady.frame {src dst : Operand} {s t : State} {v : Word} {l : Loc}
    (h : OperandsReady src dst s v l t) :
    PhaseFrame (fun n => src = .autoInc n ∨ dst = .autoInc n) (src.constWords + dst.constWords) s t := by
  obtain ⟨s₁, h1, h2, -⟩ := h
  exact operands_frame h1 h2

/-- The frame of a destination when it is ready. -/
theorem OperandReady.frame {dst : Operand} {s t : State} {l : Loc} (h : OperandReady dst s l t) :
    ResolveFrame dst s t := resolveDst_frame h.1

/-! ## What each shape answers when its operands are ready -/

/-- The state after a calculation on the location's value, before the result is stored. -/
def Calc.flagged (c : Calc) (s : State) (l : Loc) : State :=
  { (s.afterLoc l).drew c.draws with psw := c.flags (s.valueAt l) s.psw.cf (s.afterLoc l).draws }

/-- A calculation on a location answers its result and the state with the flags. -/
theorem Calc.run_loc (c : Calc) (s : State) (l : Loc) :
    c.run (s.valueAt l) (s.afterLoc l) = (c.result (s.valueAt l) s.psw.cf, c.flagged s l) := by
  simp only [Calc.run, Calc.flagged, State.afterLoc_psw]

theorem run_move {src dst : Operand} {s t : State} {v : Word} {l : Loc} (h : OperandsReady src dst s v l t) :
    (Shape.move src dst).run s = .next (t.put l v) := by
  obtain ⟨hk, hl⟩ := withOperands_ok h fun v l s => writeLoc l v s
  exact hk.trans (writeLoc_ok v hl)

theorem run_update2 {src dst : Operand} {s t : State} {v : Word} {l : Loc}
    (h : OperandsReady src dst s v l t) (c : Word → Calc) :
    (Shape.update2 c src dst).run s =
      .next (((c v).flagged t l).put l ((c v).result (t.valueAt l) t.psw.cf)) := by
  obtain ⟨hk, hl⟩ := withOperands_ok h fun v l s => updateLoc l s (c v).run
  refine hk.trans ((updateLoc_ok hl _ fun _ _ => rfl).trans ?_)
  rw [Calc.run_loc]

theorem run_observe {src dst : Operand} {s t : State} {v : Word} {l : Loc}
    (h : OperandsReady src dst s v l t) (c : Word → Calc) :
    (Shape.observe c src dst).run s = .next ((c v).flagged t l) := by
  obtain ⟨hk, hl⟩ := withOperands_ok h fun v l s => observeLoc l s (c v).run
  refine hk.trans ((observeLoc_ok hl _).trans ?_)
  rw [Calc.run_loc]

theorem run_update1 {dst : Operand} {s t : State} {l : Loc} (h : OperandReady dst s l t) (c : Calc) :
    (Shape.update1 c dst).run s = .next ((c.flagged t l).put l (c.result (t.valueAt l) t.psw.cf)) := by
  obtain ⟨hk, hl⟩ := withDst_ok h fun l s => updateLoc l s c.run
  refine hk.trans ((updateLoc_ok hl _ fun _ _ => rfl).trans ?_)
  rw [Calc.run_loc]

theorem run_jump {dst : Operand} {s t : State} {a : Word} (h : resolveDst dst s = .next (.mem a, t))
    (cond : Psw → Bool) :
    (Shape.jump cond dst).run s = .next (if cond s.psw then { t with pc := a } else t) := by
  rw [← (resolveDst_frame h).psw]
  simp [Shape.run, jumpWhen, withDst, h, target]

theorem run_push {dst : Operand} {s t : State} {l : Loc} (h : OperandReady dst s l t)
    (hsp : accessible s.cfg (s.sp - 1) = true) :
    (Shape.push dst).run s =
      .next (({ t.afterLoc l with sp := s.sp - 1 } : State).store (s.sp - 1) (t.valueAt l)) := by
  obtain ⟨hk, hl⟩ := withDst_ok h fun l s => andThen (readLoc l s) fun p => push p.1 p.2
  have f := h.frame.afterLoc l
  refine hk.trans ?_
  rw [readLoc_ok hl, andThen_next, ← f.sp]
  exact push_eq_next.mpr ⟨by rw [f.cfg, f.sp]; exact hsp, rfl⟩

theorem run_pop {dst : Operand} {s t : State} {l : Loc} (h : OperandReady dst s l t)
    (hsp : accessible s.cfg s.sp = true) :
    (Shape.pop dst).run s =
      .next (({ t.afterRead s.sp with sp := s.sp + 1 } : State).put l (t.peek s.sp)) := by
  obtain ⟨hk, hl⟩ := withDst_ok h fun l s => andThen (pop s) fun p => writeLoc l p.1 p.2
  have f := h.frame
  refine hk.trans ?_
  rw [← f.sp, pop_eq_next.mpr ⟨by rw [f.cfg, f.sp]; exact hsp, rfl, rfl⟩, andThen_next]
  exact writeLoc_ok _ (by simpa using hl)

theorem run_call {dst : Operand} {s t : State} {a : Word} (h : resolveDst dst s = .next (.mem a, t))
    (hsp : accessible s.cfg (s.sp - 1) = true) :
    (Shape.call dst).run s =
      .next { ({ t with sp := s.sp - 1 } : State).store (s.sp - 1) (s.pc + BitVec.ofNat 16 dst.constWords)
        with pc := a } := by
  have f := resolveDst_frame h
  have hpush : push t.pc t = .next (({ t with sp := t.sp - 1 } : State).store (t.sp - 1) t.pc) :=
    push_eq_next.mpr ⟨by rw [f.cfg, f.sp]; exact hsp, rfl⟩
  simp only [Shape.run, execCall, withDst, h, target, andThen_next, hpush]
  rw [f.sp, f.pc]

theorem run_ret {s : State} (hsp : accessible s.cfg s.sp = true) :
    Shape.ret.run s = .next { s.afterRead s.sp with sp := s.sp + 1, pc := s.peek s.sp } := by
  simp only [Shape.run, execRet, pop_eq_next.mpr ⟨hsp, rfl, rfl⟩, andThen_next]

end Sys2Proof.Machine
end

section
/-! PROOFS. The results of the data instructions (spec R141, R150~R164, R180~R187): each instruction's shape
with its calculation written out. -/

namespace Sys2Proof.Machine

/-- Settles O20: MOV writes the source's value, and the operand phases write no flag. -/
theorem movCopiesItsSource : Obligations.MovCopiesItsSource := by
  intro src dst s t v l h
  refine ⟨(exec_eq_shape ..).trans (run_move h), ?_, ?_, ?_⟩
  · rw [State.put_psw, h.frame.psw]
  · rintro n rfl
    exact State.reg_setReg_self ..
  · rintro a rfl hr
    exact State.read_store_self (by rw [h.frame.cfg]; exact hr)

/-- Settles O21: the three are calculations of exact sums. -/
theorem additionsWriteSumAndFlags : Obligations.AdditionsWriteSumAndFlags := by
  refine ⟨fun src dst s t v l h => ⟨?_, ?_⟩, fun dst s t l h => ?_⟩
  · exact (exec_eq_shape ..).trans (run_update2 h _)
  · rw [← h.frame.psw]
    exact (exec_eq_shape ..).trans (run_update2 h _)
  · exact (exec_eq_shape ..).trans (run_update1 h _)

/-- Settles O22: the three are calculations of exact differences. -/
theorem subtractionsWriteDifferenceAndFlags : Obligations.SubtractionsWriteDifferenceAndFlags := by
  refine ⟨fun src dst s t v l h => ⟨?_, ?_⟩, fun dst s t l h => ?_⟩
  · exact (exec_eq_shape ..).trans (run_update2 h _)
  · rw [← h.frame.psw]
    exact (exec_eq_shape ..).trans (run_update2 h _)
  · exact (exec_eq_shape ..).trans (run_update1 h _)

/-- ZF of a difference without borrow says the words are equal (R157). -/
theorem diffPsw_zf (d v : Word) : (diffPsw d v false).zf = true ↔ d = v := by
  have hd := d.isLt
  have hv := v.isLt
  simp only [diffPsw, diffWord_toNat, decide_eq_true_eq, ← BitVec.toNat_inj, Bool.toNat_false]
  omega

/-- CF of a difference without borrow says the first word is below, unsigned (R157). -/
theorem diffPsw_cf (d v : Word) : (diffPsw d v false).cf = true ↔ d.toNat < v.toNat := by
  simp only [diffPsw, decide_eq_true_eq, Bool.toNat_false]
  omega

/-- SF and OF of a difference without borrow differ when the first word is less, signed (R157). -/
theorem diffPsw_sf_ne_of (d v : Word) :
    (diffPsw d v false).sf ≠ (diffPsw d v false).of ↔ d.toInt < v.toInt := by
  have hd := d.isLt
  have hv := v.isLt
  simp only [diffPsw, ne_eq, decide_eq_decide, toInt_eq, diffWord_toNat, Bool.toNat_false]
  omega

/-- Settles O23: CMP is the observed difference, and three facts of integer arithmetic. -/
theorem compareSetsFlagsOfTheDifference : Obligations.CompareSetsFlagsOfTheDifference := by
  intro src dst s t v l h d
  exact ⟨(exec_eq_shape ..).trans (run_observe h _), diffPsw_zf d v, diffPsw_cf d v, diffPsw_sf_ne_of d v⟩

/-- Settles O24: the bitwise calculations draw OF and CF. -/
theorem logicWritesResultAndItsFlags : Obligations.LogicWritesResultAndItsFlags := by
  refine ⟨fun src dst s t v l h => ⟨fun e he => ?_, ?_⟩, fun dst s t l h => ?_⟩
  · simp only [List.mem_cons, List.not_mem_nil, or_false] at he
    obtain rfl | rfl | rfl := he <;> exact ⟨_, _, (exec_eq_shape ..).trans (run_update2 h _)⟩
  · exact ⟨_, _, (exec_eq_shape ..).trans (run_observe h _)⟩
  · exact ⟨_, _, (exec_eq_shape ..).trans (run_update1 h _)⟩

/-- A shift whose result and outgoing bit agree with given functions. -/
theorem run_shift {dst : Operand} {s t : State} {l : Loc} (h : OperandReady dst s l t)
    {f g : Word → Bool → Word} {out out' : Word → Bool} (hf : ∀ v c, f v c = g v c)
    (hout : ∀ v, out v = out' v) : ∃ sf zf of, (Shape.update1 (shiftCalc f out) dst).run s =
      .next (({ (t.afterLoc l).drew 3 with
                psw := { cf := out' (t.valueAt l), of := of, sf := sf, zf := zf } } : State).put l
        (g (t.valueAt l) s.psw.cf)) := by
  rw [← hf, ← hout, ← h.frame.psw]
  exact ⟨_, _, _, run_update1 h _⟩

/-- Settles O25: the bits that each of the seven moves, as arithmetic and library rotations. -/
theorem shiftsMoveOneBit : Obligations.ShiftsMoveOneBit := by
  intro e he dst s t l h
  simp only [shiftTable, List.mem_cons, List.not_mem_nil, or_false] at he
  rw [exec_eq_shape]
  obtain rfl | rfl | rfl | rfl | rfl | rfl | rfl := he
  · exact run_shift h (fun v _ => sarWord_eq v) getLsbD_0_eq
  · exact run_shift h (fun v _ => shlWord_eq v) getLsbD_15_eq_le
  · exact run_shift h (fun v _ => shrWord_eq v) getLsbD_0_eq
  · exact run_shift h (fun v _ => rolWord_eq v) getLsbD_15_eq_le
  · exact run_shift h (fun v _ => rorWord_eq v) getLsbD_0_eq
  · exact run_shift h rclWord_eq getLsbD_15_eq_le
  · exact run_shift h rcrWord_eq getLsbD_0_eq

/-! ## Periods of the rotations -/

/-- A map that sends bit `i` to where bit `i + d` was, around the width, is back after as many
applications as there are bits. -/
theorem iterate_width_eq_of_rotates {w d : Nat} {f : BitVec w → BitVec w}
    (hf : ∀ x i, i < w → (f x).getLsbD i = x.getLsbD ((i + d) % w)) (x : BitVec w) : f^[w] x = x := by
  have hk (k : Nat) : ∀ i, i < w → (f^[k] x).getLsbD i = x.getLsbD ((i + k * d) % w) := by
    induction k with
    | zero => intro i hi; simp [Nat.mod_eq_of_lt hi]
    | succ k ih =>
      intro i hi
      rw [Function.iterate_succ_apply', hf _ _ hi, ih _ (Nat.mod_lt _ (by omega)), Nat.mod_add_mod]
      congr 2
      ring
  apply BitVec.eq_of_getLsbD_eq
  intro i hi
  rw [hk w i hi, Nat.add_mul_mod_self_left, Nat.mod_eq_of_lt hi]

/-- Rotating left by one bit as often as there are bits is the identity. -/
theorem iterate_rotateLeft {w : Nat} (hw : 1 < w) (x : BitVec w) : (fun y => y.rotateLeft 1)^[w] x = x := by
  refine iterate_width_eq_of_rotates (d := w - 1) (fun y i hi => ?_) x
  rw [BitVec.getLsbD_rotateLeft, Nat.mod_eq_of_lt hw]
  rcases Nat.eq_zero_or_pos i with rfl | h0
  · simp [Nat.mod_eq_of_lt (show w - 1 < w by omega)]
  · have hmod : (i + (w - 1)) % w = i - 1 := by
      rw [show i + (w - 1) = i - 1 + w by omega, Nat.add_mod_right, Nat.mod_eq_of_lt (by omega)]
    simp [hmod, hi, show ¬ i < 1 by omega]

/-- Rotating right by one bit as often as there are bits is the identity. -/
theorem iterate_rotateRight {w : Nat} (hw : 1 < w) (x : BitVec w) : (fun y => y.rotateRight 1)^[w] x = x := by
  refine iterate_width_eq_of_rotates (d := 1) (fun y i hi => ?_) x
  rw [BitVec.getLsbD_rotateRight, Nat.mod_eq_of_lt hw]
  by_cases hlast : i < w - 1
  · simp [hlast, Nat.mod_eq_of_lt (show i + 1 < w by omega), Nat.add_comm]
  · obtain rfl : w = i + 1 := by omega
    simp

/-- A shift or rotate as a map of the word and CF. -/
def withCarry (f : Word → Bool → Word) (out : Word → Bool) (x : Word × Bool) : Word × Bool :=
  (f x.1 x.2, out x.1)

/-- CF and the word as one word of 17 bits, CF at the top. -/
def carryWord (x : Word × Bool) : BitVec 17 := BitVec.ofBool x.2 ++ x.1

theorem carryWord_injective : Function.Injective carryWord := by
  rintro ⟨v, b⟩ ⟨w, c⟩ h
  have hsum := congrArg BitVec.toNat h
  simp only [carryWord, toNat_append_eq, BitVec.toNat_ofBool] at hsum
  have hv := v.isLt
  have hw := w.isLt
  have hvw : v = w := BitVec.eq_of_toNat_eq (by omega)
  have hbc : b = c := by cases b <;> cases c <;> simp at hsum ⊢ <;> omega
  rw [hvw, hbc]

/-- RCL rotates the 17 bits left (R186). -/
theorem carryWord_rcl :
    Function.Semiconj carryWord (withCarry rclWord (·.getLsbD 15)) (fun y => y.rotateLeft 1) := by
  intro x
  apply BitVec.eq_of_getLsbD_eq
  intro i hi
  simp only [carryWord, withCarry, rclWord, BitVec.getLsbD_append, BitVec.getLsbD_rotateLeft]
  interval_cases i <;> simp

/-- RCR rotates the 17 bits right (R187). -/
theorem carryWord_rcr :
    Function.Semiconj carryWord (withCarry rcrWord (·.getLsbD 0)) (fun y => y.rotateRight 1) := by
  intro x
  apply BitVec.eq_of_getLsbD_eq
  intro i hi
  simp only [carryWord, withCarry, rcrWord, BitVec.getLsbD_append, BitVec.getLsbD_rotateRight]
  interval_cases i <;> simp

/-- Shifting a register over and over completes, and iterates the map of the word and CF. -/
theorem execTimes_shift {i : Instr} {f : Word → Bool → Word} {out : Word → Bool} {n : RegNum}
    (hi : shape i = .update1 (shiftCalc f out) (.reg n)) (k : Nat) (s : State) :
    ∃ t, execTimes k i s = .next t ∧ (t.reg n, t.psw.cf) = (withCarry f out)^[k] (s.reg n, s.psw.cf) := by
  induction k generalizing s with
  | zero => exact ⟨s, rfl, rfl⟩
  | succ k ih =>
    have hready : OperandReady (.reg n) s (.reg n) s := ⟨rfl, trivial⟩
    obtain ⟨t, ht, hx⟩ := ih ((((shiftCalc f out).flagged s (.reg n))).setReg n (f (s.reg n) s.psw.cf))
    refine ⟨t, ?_, hx.trans ?_⟩
    · rw [execTimes, exec_eq_shape, hi, run_update1 hready]
      exact ht
    · rw [State.reg_setReg_self, Function.iterate_succ_apply]
      rfl

/-- Settles O26: sixteen rotations of 16 bits, seventeen of 17 bits. -/
theorem rotationsHaveTheirPeriod : Obligations.RotationsHaveTheirPeriod := by
  have plain {i : Instr} {f : Word → Word} {out : Word → Bool} {n : RegNum} (s : State)
      (hi : shape i = .update1 (shiftCalc (fun v _ => f v) out) (.reg n)) (hf : ∀ v, f^[16] v = v) :
      ∃ t, execTimes 16 i s = .next t ∧ t.reg n = s.reg n := by
    obtain ⟨t, ht, hx⟩ := execTimes_shift hi 16 s
    have hfst : Function.Semiconj Prod.fst (withCarry (fun v _ => f v) out) f := fun _ => rfl
    refine ⟨t, ht, ?_⟩
    rw [show t.reg n = _ from congrArg Prod.fst hx, hfst.iterate_right 16, hf]
  have carry {i : Instr} {f : Word → Bool → Word} {out : Word → Bool} {n : RegNum} (s : State)
      {rot : BitVec 17 → BitVec 17} (hi : shape i = .update1 (shiftCalc f out) (.reg n))
      (hrot : Function.Semiconj carryWord (withCarry f out) rot) (hperiod : ∀ x, rot^[17] x = x) :
      ∃ t, execTimes 17 i s = .next t ∧ t.reg n = s.reg n ∧ t.psw.cf = s.psw.cf := by
    obtain ⟨t, ht, hx⟩ := execTimes_shift hi 17 s
    have hid : (withCarry f out)^[17] (s.reg n, s.psw.cf) = (s.reg n, s.psw.cf) :=
      carryWord_injective ((hrot.iterate_right 17 _).trans (hperiod _))
    exact ⟨t, ht, Prod.ext_iff.mp (hx.trans hid)⟩
  intro s n
  constructor
  · rintro i hi
    obtain rfl | rfl : i = .rol (.reg n) ∨ i = .ror (.reg n) := by simpa using hi
    · exact plain s rfl fun v => by
        rw [show rolWord = fun y => y.rotateLeft 1 from funext rolWord_eq]
        exact iterate_rotateLeft (by decide) v
    · exact plain s rfl fun v => by
        rw [show rorWord = fun y => y.rotateRight 1 from funext rorWord_eq]
        exact iterate_rotateRight (by decide) v
  · rintro i hi
    obtain rfl | rfl : i = .rcl (.reg n) ∨ i = .rcr (.reg n) := by simpa using hi
    · exact carry s rfl carryWord_rcl (iterate_rotateLeft (by decide))
    · exact carry s rfl carryWord_rcr (iterate_rotateRight (by decide))

end Sys2Proof.Machine
end

section
/-! PROOFS. Access to memory and the fetch (spec R60, R65, R110~R125): the words read, the locations of the
addressing modes, and the accesses a device sees. -/

namespace Sys2Proof.Machine

/-- An address below RAM_WORDS is accessible (R60). -/
theorem accessible_of_isRam {c : Config} {a : Word} (h : isRam c a = true) : accessible c a = true := by
  simp [accessible, h]

/-- A read in RAM answers a word and draws at most a free value (R60, R61). -/
theorem memRead_ram {s : State} {a : Word} (h : isRam s.cfg a = true) :
    ∃ x k, memRead a s = .next (x, { s with draws := k }) := by
  refine ⟨s.peek a, (s.afterRead a).draws, (memRead_ok (accessible_of_isRam h)).trans ?_⟩
  rw [State.afterRead_eq, State.afterRead_ioTrace, if_pos h]

/-- A read of a stored RAM word (R60, R61). -/
theorem memRead_stored {s : State} {a x : Word} (h : isRam s.cfg a = true)
    (hx : Memory.read s.mem a.toNat = some x) : memRead a s = .next (x, s) := by
  obtain ⟨hpeek, hafter⟩ := State.peek_of_read h hx
  rw [memRead_ok (accessible_of_isRam h), hpeek, hafter]

/-- A fetch of a stored RAM word (R111). -/
theorem fetchWord_stored {s : State} {x : Word} (h : isRam s.cfg s.pc = true)
    (hx : Memory.read s.mem s.pc.toNat = some x) : fetchWord s = .next (x, { s with pc := s.pc + 1 }) := by
  rw [fetchWord, memRead_stored h hx]
  rfl

/-- A pop of a stored RAM word (R140). -/
theorem pop_stored {s : State} {x : Word} (h : isRam s.cfg s.sp = true)
    (hx : Memory.read s.mem s.sp.toNat = some x) : pop s = .next (x, { s with sp := s.sp + 1 }) := by
  rw [pop, memRead_stored h hx]
  rfl

/-- Settles O15: the three ranges of the map are RAM, I/O and neither. -/
theorem memoryPrimitivesFollowTheMap : Obligations.MemoryPrimitivesFollowTheMap := by
  refine fun s a v => ⟨fun hram => ?_, fun hram hint hio => ?_, fun hram hno => ?_⟩
  · have hr : isRam s.cfg a = true := (isRam_iff ..).mpr hram
    refine ⟨fun x hx => memRead_stored hr hx, memRead_ram hr, _, memWrite_ok v (accessible_of_isRam hr), ?_, ?_⟩
    · rw [State.store_eq, State.store_ioTrace, if_pos hr]
    · intro k
      split_ifs with hk
      · rw [hk, State.read_store_self hr]
      · exact State.read_store_ne s a v hk
  · have hr : isRam s.cfg a = false := by simpa [isRam] using hram
    have hacc : accessible s.cfg a = true := by simp [accessible, (isIo_iff s.cfg a).mpr ⟨hint, hio⟩]
    refine ⟨⟨s.peek a, s.draws + 1, (memRead_ok hacc).trans ?_⟩, (memWrite_ok v hacc).trans ?_⟩
    · simp only [State.afterRead, hr]
      rfl
    · simp only [State.store, hr]
      rfl
  · have hacc : accessible s.cfg a = false := by
      rcases hno with hint | hlow
      · simp [accessible, isRam, isIo, hram, hint]
      · simp [accessible, isRam, isIo, ioBase, hram, hlow]
    exact ⟨by simp [memRead, hacc], by simp [memWrite, hacc]⟩

/-- Settles O16: a stored word is read as stored, by the fetch too. -/
theorem storedWordIsFetchedNext : Obligations.StoredWordIsFetchedNext := by
  refine ⟨fun s t a v hr hw => ?_, fun src dst s s₁ t v a h hr hx hpc => ?_⟩
  · obtain ⟨-, rfl⟩ := memWrite_eq_next.mp hw
    exact fetchWord_stored (s := { s.store a v with pc := a }) (by simpa using hr) (State.read_store_self hr)
  · rw [exec_eq_shape, shape, run_move h] at hx
    cases hx
    have hr₁ : isRam s₁.cfg a = true := by rw [h.frame.cfg]; exact hr
    rw [fetchWord_stored (by rw [hpc, State.put_cfg]; exact hr₁)
      (by rw [hpc]; exact State.read_store_self hr₁), hpc]

/-- A fetch at an accessible PC (R111). -/
theorem fetchWord_ok {s : State} (h : accessible s.cfg s.pc = true) :
    fetchWord s = .next (s.peek s.pc, { s.afterRead s.pc with pc := s.pc + 1 }) :=
  fetchWord_eq_next.mpr ⟨h, rfl, rfl⟩

/-- Settles O17: the modes that fetch a word do so first. -/
theorem addressingModesGiveTheirLocations : Obligations.AddressingModesGiveTheirLocations := by
  refine fun s n => ⟨rfl, resolve_ind n s, resolve_autoInc n s, fun hpc => ?_, rfl, fun o => ⟨?_, ?_, ?_⟩⟩
  · have hf := fetchWord_ok hpc
    refine ⟨?_, ?_, fun hw => ?_, resolve_indexed hf n, ?_⟩
    · simp only [resolve, hf, andThen_next]
    · simp only [resolve, hf, andThen_next]
    · simp only [resolve, hf, andThen_next]
      rw [memRead_ok (by simpa using hw)]
      rfl
    · simp only [resolve, hf, andThen_next]
  · exact fun ho => resolveDst_eq ho s
  · intro r hr
    rw [readSource, hr, andThen_refused]
  · intro l t ht
    rw [readSource, ht, andThen_next, ← (resolve_frame ht).cfg]
    cases l <;> rfl

/-! ## Accesses to a destination in the I/O region (R125, R129) -/

section IoDestination
variable {s t : State} {a : Word} (hio : isRam s.cfg a = false)
include hio

/-- A calculation on an I/O word reads it once. -/
theorem flagged_io (c : Calc) :
    (c.flagged s (.mem a)).mem = s.mem ∧ (c.flagged s (.mem a)).ioTrace = .read a (s.peek a) :: s.ioTrace :=
  ⟨State.afterRead_mem s a, by
    rw [show (c.flagged s (.mem a)).ioTrace = (s.afterRead a).ioTrace from rfl, State.afterRead_ioTrace, hio]
    rfl⟩

/-- Storing to an I/O word is one write. -/
theorem put_io (v : Word) :
    (s.put (.mem a) v).mem = s.mem ∧ (s.put (.mem a) v).ioTrace = .write a v :: s.ioTrace := by
  simp [State.put, State.store_mem, State.store_ioTrace, hio]

/-- Calculating on an I/O word and storing the result is one read and then one write. -/
theorem flagged_put_io (c : Calc) (r : Word) :
    ((c.flagged s (.mem a)).put (.mem a) r).mem = s.mem ∧
      ((c.flagged s (.mem a)).put (.mem a) r).ioTrace = .write a r :: .read a (s.peek a) :: s.ioTrace := by
  obtain ⟨hmem, htrace⟩ := flagged_io hio c
  have hcfg : isRam (c.flagged s (.mem a)).cfg a = false := by
    rw [show (c.flagged s (.mem a)).cfg = s.cfg from State.afterRead_cfg s a]
    exact hio
  obtain ⟨hmem', htrace'⟩ := put_io hcfg r
  exact ⟨hmem'.trans hmem, htrace'.trans (congrArg _ htrace)⟩

end IoDestination

/-- Settles O19: the accesses of each shape at an I/O destination. -/
theorem ioDestinationAccessesInOrder : Obligations.IoDestinationAccessesInOrder := by
  refine fun a => ⟨fun mk hmk dst s s₁ h hio => ?_, fun mk hmk src dst s s₁ v h hio => ?_,
    fun src dst s s₁ v h hio => ⟨?_, fun mk hmk => ?_⟩⟩
  · obtain ⟨c, hc⟩ := shape_update1 hmk
    rw [← h.frame.cfg] at hio
    obtain ⟨hmem, htrace⟩ := flagged_put_io hio c (c.result (s₁.valueAt (.mem a)) s₁.psw.cf)
    exact ⟨_, _, by rw [exec_eq_shape, hc, run_update1 h], hmem.trans h.frame.mem, htrace⟩
  · obtain ⟨c, hc⟩ := shape_update2 hmk
    rw [← h.frame.cfg] at hio
    obtain ⟨hmem, htrace⟩ := flagged_put_io hio (c v) ((c v).result (s₁.valueAt (.mem a)) s₁.psw.cf)
    exact ⟨_, _, by rw [exec_eq_shape, hc, run_update2 h], hmem.trans h.frame.mem, htrace⟩
  · rw [← h.frame.cfg] at hio
    obtain ⟨hmem, htrace⟩ := put_io hio v
    exact ⟨_, (exec_eq_shape ..).trans (run_move h), hmem.trans h.frame.mem, htrace⟩
  · obtain ⟨c, hc⟩ := shape_observe hmk
    rw [← h.frame.cfg] at hio
    obtain ⟨hmem, htrace⟩ := flagged_io hio (c v)
    exact ⟨_, by rw [exec_eq_shape, hc, run_observe h], hmem.trans h.frame.mem, htrace⟩

/-! ## The same register in both operands (R126) -/

/-- Storing to a RAM word, and reading any word after it. -/
theorem read_put_ram {s : State} {a : Word} (h : isRam s.cfg a = true) (v : Word) (k : Nat) :
    Memory.read (s.put (.mem a) v).mem k = if k = a.toNat then some v else Memory.read s.mem k := by
  split_ifs with hk
  · rw [hk]
    exact State.read_store_self h
  · exact State.read_store_ne s a v hk

/-- A sum without carry in is the sum of words. -/
theorem sumWord_eq_add (a b : Word) : sumWord a b false = a + b := by
  apply BitVec.eq_of_toNat_eq
  simp [sumWord]

/-- An auto-increment source in RAM: the word, and the register one further (R117, R123). -/
theorem readSource_autoInc_stored {s : State} {n : RegNum} {x : Word} (h : isRam s.cfg (s.reg n) = true)
    (hx : Memory.read s.mem (s.reg n).toNat = some x) :
    readSource (.autoInc n) s = .next (x, s.setReg n (s.reg n + 1)) := by
  rw [readSource, resolve_autoInc, andThen_next]
  exact memRead_stored (s := s.setReg n (s.reg n + 1)) h hx

/-- The flags written after a stored RAM word is read leave memory and registers alone. -/
theorem flagged_stored {c : Calc} {s : State} {a x : Word} (h : isRam s.cfg a = true)
    (hx : Memory.read s.mem a.toNat = some x) : s.valueAt (.mem a) = x ∧ (c.flagged s (.mem a)).cfg = s.cfg ∧
      (c.flagged s (.mem a)).mem = s.mem ∧ (c.flagged s (.mem a)).regs = s.regs :=
  ⟨(State.peek_of_read h hx).1, State.afterRead_cfg s a, State.afterRead_mem s a, State.afterRead_regs s a⟩

section SameRegister
variable {s : State} {n : RegNum} {x y : Word} (hr : isRam s.cfg (s.reg n) = true)
  (hr' : isRam s.cfg (s.reg n + 1) = true) (hx : Memory.read s.mem (s.reg n).toNat = some x)
  (hy : Memory.read s.mem (s.reg n + 1).toNat = some y)
include hr

/-- MOV Rn,(Rn)+ stores the old Rn: the source is read before Rn moves (R112). -/
theorem mov_reg_autoInc : ∃ t, exec (.mov (.reg n) (.autoInc n)) s = .next t ∧ t.reg n = s.reg n + 1 ∧
    Memory.read t.mem (s.reg n).toNat = some (s.reg n) := by
  have h : OperandsReady (.reg n) (.autoInc n) s (s.reg n) (.mem (s.reg n)) (s.setReg n (s.reg n + 1)) :=
    ⟨s, rfl, rfl, accessible_of_isRam hr⟩
  refine ⟨_, (exec_eq_shape ..).trans (run_move h), ?_, State.read_store_self hr⟩
  exact (State.store_reg ..).trans (State.reg_setReg_self ..)

include hx

/-- MOV (Rn)+,Rn leaves the word read: the write comes last (R124). -/
theorem mov_autoInc_reg : ∃ t, exec (.mov (.autoInc n) (.reg n)) s = .next t ∧ t.reg n = x ∧ t.mem = s.mem := by
  have h : OperandsReady (.autoInc n) (.reg n) s x (.reg n) (s.setReg n (s.reg n + 1)) :=
    ⟨_, readSource_autoInc_stored hr hx, rfl, trivial⟩
  exact ⟨_, (exec_eq_shape ..).trans (run_move h), State.reg_setReg_self .., rfl⟩

/-- ADD (Rn)+,Rn adds to the incremented Rn (R117). -/
theorem add_autoInc_reg : ∃ t, exec (.add (.autoInc n) (.reg n)) s = .next t ∧ t.reg n = s.reg n + 1 + x ∧
    t.mem = s.mem := by
  have h : OperandsReady (.autoInc n) (.reg n) s x (.reg n) (s.setReg n (s.reg n + 1)) :=
    ⟨_, readSource_autoInc_stored hr hx, rfl, trivial⟩
  refine ⟨_, (exec_eq_shape ..).trans (run_update2 h _), (State.reg_setReg_self ..).trans ?_, rfl⟩
  exact (sumWord_eq_add ..).trans (congrArg (· + x) (State.reg_setReg_self ..))

include hr' hy in
/-- ADD (Rn)+,(Rn)+ takes the two words one after the other (R117). -/
theorem add_autoInc_autoInc : ∃ t, exec (.add (.autoInc n) (.autoInc n)) s = .next t ∧
    t.reg n = s.reg n + 2 ∧ Memory.read t.mem (s.reg n + 1).toNat = some (y + x) ∧
    Memory.read t.mem (s.reg n).toNat = some x := by
  have hdst : resolveDst (.autoInc n) (s.setReg n (s.reg n + 1)) =
      .next (.mem (s.reg n + 1), (s.setReg n (s.reg n + 1)).setReg n (s.reg n + 2)) := by
    rw [resolveDst_eq (by simp), resolve_autoInc, State.reg_setReg_self, BitVec.add_assoc]
    rfl
  have h : OperandsReady (.autoInc n) (.autoInc n) s x (.mem (s.reg n + 1)) _ :=
    ⟨_, readSource_autoInc_stored hr hx, hdst, accessible_of_isRam hr'⟩
  obtain ⟨hval, hcfg, hmem, hregs⟩ := flagged_stored (c := sumCalc (fun _ => false) x)
    (s := (s.setReg n (s.reg n + 1)).setReg n (s.reg n + 2)) hr' hy
  have hne : (s.reg n).toNat ≠ (s.reg n + 1).toNat := by
    bv_omega
  refine ⟨_, (exec_eq_shape ..).trans (run_update2 h _), ?_, ?_, ?_⟩
  · exact ((State.store_reg ..).trans (State.reg_congr hregs n)).trans (State.reg_setReg_self ..)
  · rw [read_put_ram (by rw [hcfg]; exact hr'), if_pos rfl, hval]
    exact congrArg some (sumWord_eq_add ..)
  · rw [read_put_ram (by rw [hcfg]; exact hr'), if_neg hne, hmem]
    exact hx

/-- MOV (Rn)+,d(Rn) indexes by the incremented Rn (R117, R121). -/
theorem mov_autoInc_indexed {d : Word} (hpc : isRam s.cfg s.pc = true)
    (hd : Memory.read s.mem s.pc.toNat = some d) (ha : isRam s.cfg (s.reg n + 1 + d) = true) :
    ∃ t, exec (.mov (.autoInc n) (.indexed n)) s = .next t ∧ t.reg n = s.reg n + 1 ∧
      ∀ k : Nat, Memory.read t.mem k = if k = (s.reg n + 1 + d).toNat then some x else Memory.read s.mem k := by
  have hfetch := fetchWord_stored (s := s.setReg n (s.reg n + 1)) hpc hd
  have hdst := (resolveDst_eq (o := .indexed n) (by simp) _).trans (resolve_indexed hfetch n)
  rw [State.reg_setReg_self] at hdst
  have h : OperandsReady (.autoInc n) (.indexed n) s x (.mem (s.reg n + 1 + d)) _ :=
    ⟨_, readSource_autoInc_stored hr hx, hdst, accessible_of_isRam ha⟩
  refine ⟨_, (exec_eq_shape ..).trans (run_move h), ?_, fun k => read_put_ram (by exact ha) x k⟩
  exact (State.store_reg ..).trans (State.reg_setReg_self s n _)

end SameRegister

/-- ADD Rn,Rn doubles Rn (R153). -/
theorem add_reg_reg (s : State) (n : RegNum) : ∃ t, exec (.add (.reg n) (.reg n)) s = .next t ∧
    t.reg n = s.reg n + s.reg n ∧ t.mem = s.mem ∧ t.psw = sumPsw (s.reg n) (s.reg n) false := by
  have h : OperandsReady (.reg n) (.reg n) s (s.reg n) (.reg n) s := ⟨s, rfl, rfl, trivial⟩
  refine ⟨_, (exec_eq_shape ..).trans (run_update2 h _), ?_, rfl, rfl⟩
  exact (State.reg_setReg_self ..).trans (sumWord_eq_add ..)

/-- Settles O18: the six rows of R126. -/
theorem sameRegisterInBothOperands : Obligations.SameRegisterInBothOperands :=
  fun s n _ _ hr hr' hx hy => ⟨mov_reg_autoInc hr, mov_autoInc_reg hr hx, add_autoInc_autoInc hr hr' hx hy,
    add_autoInc_reg hr hx, fun _ => mov_autoInc_indexed hr hx, add_reg_reg s n⟩

end Sys2Proof.Machine
end

section
/-! PROOFS. What each shape can answer, and the changes of state that the operand phases do not see. -/

namespace Sys2Proof.Machine

/-! ## Inversion: what it means that a shape answered `t` -/

theorem run_move_inv {src dst : Operand} {s t : State} (h : (Shape.move src dst).run s = .next t) :
    ∃ v s₁ l u, readSource src s = .next (v, s₁) ∧ resolveDst dst s₁ = .next (l, u) ∧ t = u.put l v := by
  simp only [Shape.run] at h
  obtain ⟨v, s₁, l, u, h1, h2, h⟩ := withOperands_eq_next h
  exact ⟨v, s₁, l, u, h1, h2, writeLoc_eq_next h⟩

theorem run_update2_inv {c : Word → Calc} {src dst : Operand} {s t : State}
    (h : (Shape.update2 c src dst).run s = .next t) :
    ∃ v s₁ l u, readSource src s = .next (v, s₁) ∧ resolveDst dst s₁ = .next (l, u) ∧
      t = ((c v).flagged u l).put l ((c v).result (u.valueAt l) u.psw.cf) := by
  simp only [Shape.run] at h
  obtain ⟨v, s₁, l, u, h1, h2, h⟩ := withOperands_eq_next h
  refine ⟨v, s₁, l, u, h1, h2, (updateLoc_eq_next h).trans ?_⟩
  rw [Calc.run_loc]

theorem run_observe_inv {c : Word → Calc} {src dst : Operand} {s t : State}
    (h : (Shape.observe c src dst).run s = .next t) :
    ∃ v s₁ l u, readSource src s = .next (v, s₁) ∧ resolveDst dst s₁ = .next (l, u) ∧
      t = (c v).flagged u l := by
  simp only [Shape.run] at h
  obtain ⟨v, s₁, l, u, h1, h2, h⟩ := withOperands_eq_next h
  refine ⟨v, s₁, l, u, h1, h2, (observeLoc_eq_next h).trans ?_⟩
  rw [Calc.run_loc]

theorem run_update1_inv {c : Calc} {dst : Operand} {s t : State} (h : (Shape.update1 c dst).run s = .next t) :
    ∃ l u, resolveDst dst s = .next (l, u) ∧
      t = (c.flagged u l).put l (c.result (u.valueAt l) u.psw.cf) := by
  simp only [Shape.run] at h
  obtain ⟨l, u, h1, h⟩ := withDst_eq_next h
  refine ⟨l, u, h1, (updateLoc_eq_next h).trans ?_⟩
  rw [Calc.run_loc]

/-- A target is the address of a memory location (R200). -/
theorem target_eq_next {l : Loc} {a : Word} (h : target l = .next a) : l = .mem a := by
  cases l <;> cases h
  rfl

theorem run_jump_inv {cond : Psw → Bool} {dst : Operand} {s t : State}
    (h : (Shape.jump cond dst).run s = .next t) :
    ∃ a u, resolveDst dst s = .next (.mem a, u) ∧ t = if cond s.psw then { u with pc := a } else u := by
  simp only [Shape.run, jumpWhen] at h
  obtain ⟨l, u, h1, h⟩ := withDst_eq_next h
  obtain ⟨a, ha, h⟩ := andThen_eq_next.mp h
  obtain rfl := target_eq_next ha
  cases h
  exact ⟨a, u, h1, by rw [(resolveDst_frame h1).psw]⟩

theorem run_push_inv {dst : Operand} {s t : State} (h : (Shape.push dst).run s = .next t) :
    ∃ l u, resolveDst dst s = .next (l, u) ∧
      t = ({ u.afterLoc l with sp := s.sp - 1 } : State).store (s.sp - 1) (u.valueAt l) := by
  simp only [Shape.run, execPush] at h
  obtain ⟨l, u, h1, h⟩ := withDst_eq_next h
  obtain ⟨⟨v, w⟩, h2, h⟩ := andThen_eq_next.mp h
  obtain ⟨rfl, rfl⟩ := readLoc_eq_next h2
  refine ⟨l, u, h1, (push_eq_next.mp h).2.trans ?_⟩
  rw [((resolveDst_frame h1).afterLoc l).sp]

theorem run_pop_inv {dst : Operand} {s t : State} (h : (Shape.pop dst).run s = .next t) :
    ∃ l u, resolveDst dst s = .next (l, u) ∧
      t = ({ u.afterRead s.sp with sp := s.sp + 1 } : State).put l (u.peek s.sp) := by
  simp only [Shape.run, execPop] at h
  obtain ⟨l, u, h1, h⟩ := withDst_eq_next h
  obtain ⟨⟨v, w⟩, h2, h⟩ := andThen_eq_next.mp h
  obtain ⟨-, rfl, rfl⟩ := pop_eq_next.mp h2
  refine ⟨l, u, h1, (writeLoc_eq_next h).trans ?_⟩
  rw [(resolveDst_frame h1).sp]

theorem run_call_inv {dst : Operand} {s t : State} (h : (Shape.call dst).run s = .next t) :
    ∃ a u, resolveDst dst s = .next (.mem a, u) ∧
      t = { ({ u with sp := s.sp - 1 } : State).store (s.sp - 1) (s.pc + BitVec.ofNat 16 dst.constWords)
        with pc := a } := by
  simp only [Shape.run, execCall] at h
  obtain ⟨l, u, h1, hk⟩ := withDst_eq_next h
  obtain ⟨a, ha, hk⟩ := andThen_eq_next.mp hk
  obtain ⟨w, h2, ht⟩ := andThen_eq_next.mp hk
  obtain rfl := target_eq_next ha
  obtain ⟨-, rfl⟩ := push_eq_next.mp h2
  cases ht
  have f := resolveDst_frame h1
  exact ⟨a, u, h1, by rw [f.sp, f.pc]⟩

theorem run_ret_inv {s t : State} (h : Shape.ret.run s = .next t) :
    t = { s.afterRead s.sp with sp := s.sp + 1, pc := s.peek s.sp } := by
  obtain ⟨⟨v, w⟩, h1, h⟩ := andThen_eq_next.mp h
  obtain ⟨-, rfl, rfl⟩ := pop_eq_next.mp h1
  cases h
  rfl

/-! ## SP and PSW play no part in the operand phases (R110~R125) -/

/-- The state with SP and PSW replaced; everything else as it is. -/
def State.mapSpPsw (f : Word → Word) (g : Psw → Psw) (s : State) : State :=
  { s with sp := f s.sp, psw := g s.psw }

section MapSpPsw
variable (f : Word → Word) (g : Psw → Psw) {s t : State}

@[simp] theorem State.mapSpPsw_cfg (s : State) : (s.mapSpPsw f g).cfg = s.cfg := rfl
@[simp] theorem State.mapSpPsw_mem (s : State) : (s.mapSpPsw f g).mem = s.mem := rfl

theorem State.mapSpPsw_afterRead (s : State) (a : Word) :
    (s.mapSpPsw f g).afterRead a = (s.afterRead a).mapSpPsw f g := by
  cases hr : isRam s.cfg a <;> cases hm : (Memory.read s.mem a.toNat).isSome <;>
    simp [State.afterRead, hr, hm] <;> rfl

theorem State.mapSpPsw_store (s : State) (a v : Word) :
    (s.mapSpPsw f g).store a v = (s.store a v).mapSpPsw f g := by
  cases hr : isRam s.cfg a <;> simp [State.store, hr] <;> rfl

theorem memRead_mapSpPsw {a v : Word} (h : memRead a s = .next (v, t)) :
    memRead a (s.mapSpPsw f g) = .next (v, t.mapSpPsw f g) := by
  obtain ⟨ha, rfl, rfl⟩ := memRead_eq_next.mp h
  exact memRead_eq_next.mpr ⟨ha, rfl, (State.mapSpPsw_afterRead f g s a).symm⟩

theorem fetchWord_mapSpPsw {w : Word} (h : fetchWord s = .next (w, t)) :
    fetchWord (s.mapSpPsw f g) = .next (w, t.mapSpPsw f g) := by
  obtain ⟨⟨v, u⟩, h1, h2⟩ := andThen_eq_next.mp h
  cases h2
  rw [fetchWord, show (s.mapSpPsw f g).pc = s.pc from rfl, memRead_mapSpPsw f g h1]
  rfl

theorem resolve_mapSpPsw {o : Operand} {l : Loc} (h : resolve o s = .next (l, t)) :
    resolve o (s.mapSpPsw f g) = .next (l, t.mapSpPsw f g) := by
  cases o with
  | reg n | ind n | autoInc n =>
    cases h
    rfl
  | imm | direct | indexed n | relative =>
    obtain ⟨⟨w, u⟩, h1, h2⟩ := andThen_eq_next.mp h
    cases h2
    rw [resolve, fetchWord_mapSpPsw f g h1]
    rfl
  | indirect =>
    obtain ⟨⟨w, u⟩, h1, h2⟩ := andThen_eq_next.mp h
    obtain ⟨⟨x, u'⟩, h3, h4⟩ := andThen_eq_next.mp h2
    cases h4
    rw [resolve, fetchWord_mapSpPsw f g h1, andThen_next, memRead_mapSpPsw f g h3]
    rfl

theorem resolveDst_mapSpPsw {o : Operand} {l : Loc} (h : resolveDst o s = .next (l, t)) :
    resolveDst o (s.mapSpPsw f g) = .next (l, t.mapSpPsw f g) := by
  obtain ⟨ho, h⟩ := resolveDst_eq_next.mp h
  exact resolveDst_eq_next.mpr ⟨ho, resolve_mapSpPsw f g h⟩

theorem readLoc_mapSpPsw {l : Loc} {v : Word} (h : readLoc l s = .next (v, t)) :
    readLoc l (s.mapSpPsw f g) = .next (v, t.mapSpPsw f g) := by
  cases l with
  | mem a => exact memRead_mapSpPsw f g h
  | reg n | imm v =>
    cases h
    rfl

theorem readSource_mapSpPsw {o : Operand} {v : Word} (h : readSource o s = .next (v, t)) :
    readSource o (s.mapSpPsw f g) = .next (v, t.mapSpPsw f g) := by
  obtain ⟨⟨l, u⟩, h1, h2⟩ := andThen_eq_next.mp h
  rw [readSource, resolve_mapSpPsw f g h1]
  exact readLoc_mapSpPsw f g h2

theorem writeLoc_mapSpPsw {l : Loc} {v : Word} (h : writeLoc l v s = .next t) :
    writeLoc l v (s.mapSpPsw f g) = .next (t.mapSpPsw f g) := by
  cases l with
  | mem a =>
    obtain ⟨ha, rfl⟩ := memWrite_eq_next.mp h
    exact memWrite_eq_next.mpr ⟨ha, (State.mapSpPsw_store f g s a v).symm⟩
  | reg n =>
    cases h
    rfl
  | imm v => cases h

end MapSpPsw

end Sys2Proof.Machine
end

section
/-! PROOFS. Jumps, the stack, calls and interrupts (spec R140, R200~R259): what each answers, and that a
return undoes its call and RETI its interrupt entry. -/

namespace Sys2Proof.Machine

/-! ## Jumps -/

/-- Settles O29: each jump is a jump on the condition the table gives. -/
theorem jumpsGoToTheEffectiveAddress : Obligations.JumpsGoToTheEffectiveAddress := by
  intro e he dst s t a h
  obtain ⟨cond, hshape, hcond⟩ := shape_jump he
  rw [exec_eq_shape, hshape, run_jump h, ← hcond]
  exact ⟨fun hc => by rw [if_pos hc], fun hc => by rw [if_neg hc]⟩

/-- Settles O31: the target is asked for before anything else is done. -/
theorem jumpToRegisterIsRefused : Obligations.JumpToRegisterIsRefused := by
  intro i n s hi hd
  rw [exec_eq_shape]
  obtain ⟨cond, hshape⟩ | hshape := shape_transfer hi hd <;> rw [hshape] <;> rfl

/-- An opcode 001ffn is that of the jump on the condition `ffn` (R97). -/
theorem shape_of_ffn {k : BitVec 3} {mk : Operand → Instr} (h : singleOp (0b001#3 ++ k).toNat = some mk)
    (d : Operand) : ∃ cond, shape (mk d) = .jump cond d ∧ ∀ p, cond p = ffnCondition k p := by
  obtain ⟨hop, hffn⟩ := jumpTable_ffn k.toFin
  obtain rfl := Option.some.inj (h.symm.trans hop)
  obtain ⟨cond, hshape, hcond⟩ := shape_jump (List.mem_of_mem_tail (List.getElem_mem (l := jumpTable.tail) k.isLt))
  exact ⟨cond, hshape d, fun p => Bool.eq_iff_iff.mpr ((hcond p).trans (hffn p).symm)⟩

/-- A word with `ir[15:9]` = 0000001 has the opcode 001ffn in format S (R85, R97). -/
theorem fields_of_jump_word {w : Word} (h : w.extractLsb' 9 7 = 0b0000001) :
    wordFormat w = .single ∧ fieldSop w = (0b001#3 ++ w.extractLsb' 6 3).toNat := by
  have hk : ∀ k : BitVec 3, (0b001#3 ++ k).toNat = 8 + k.toNat := by decide
  have hw := w.isLt
  have h7 := congrArg BitVec.toNat h
  have h3 : (w.extractLsb' 6 3).toNat = w.toNat / 64 % 8 := by
    rw [BitVec.extractLsb'_toNat, Nat.shiftRight_eq_div_pow]
  simp [BitVec.extractLsb'_toNat, Nat.shiftRight_eq_div_pow] at h7
  rw [wordFormat_eq_single, hk, h3, fieldOp_eq, fieldSop_eq]
  omega

/-- Settles O30: the opcode selects the condition, for the jump and for the controller alike. -/
theorem jumpConditionIsReadFromTheOpcode : Obligations.JumpConditionIsReadFromTheOpcode := by
  intro c w i d s t a hw h7 hd hres flag taken
  obtain ⟨hi, -⟩ := decodeWord_eq_ok.mp hw
  obtain ⟨hf, hsop⟩ := fields_of_jump_word h7
  have htaken : ffnCondition (w.extractLsb' 6 3) s.psw = taken := by
    simp only [ffnCondition, BitVec.getLsbD_extractLsb']
    rfl
  obtain ⟨hf', -⟩ | ⟨-, mk, hmk, rfl⟩ | ⟨hf', -⟩ := instrOfWord_cases hi
  · rw [hf] at hf'
    cases hf'
  · obtain rfl : decodeOperand (fieldMd w) (fieldRd w) = d :=
      Option.some.inj ((operands_of_singleOp hmk _).2.symm.trans hd)
    rw [hsop] at hmk
    obtain ⟨cond, hshape, hcond⟩ := shape_of_ffn hmk (decodeOperand (fieldMd w) (fieldRd w))
    refine ⟨?_, fun m q n hm hir hpsw => ?_⟩
    · rw [exec_eq_shape, hshape, run_jump hres, hcond, htaken]
    · obtain ⟨x, hx, hbit, hsame⟩ := nextMicroAddr_condition hm q n
      refine ⟨x, hx, ?_, hsame⟩
      rw [hbit, hir, hpsw, conditionTest_eq h7, opcodeCondition_eq, htaken]
  · rw [hf] at hf'
    cases hf'

/-! ## The stack -/

/-- Settles O27: what the shapes of PUSH and POP answer. -/
theorem pushAndPopMoveThroughTheStack : Obligations.PushAndPopMoveThroughTheStack :=
  ⟨fun _ _ _ _ h hsp => (exec_eq_shape ..).trans (run_push h hsp),
    fun _ _ _ _ h hsp => (exec_eq_shape ..).trans (run_pop h hsp)⟩

/-- The top of the stack lies in RAM and holds the word. -/
def State.TopIs (s : State) (v : Word) : Prop :=
  isRam s.cfg s.sp = true ∧ Memory.read s.mem s.sp.toNat = some v

/-- A word stored where SP is put is on top of the stack (R140). -/
theorem topIs_of_store {s : State} {a : Word} (v : Word) (h : isRam s.cfg a = true) :
    (({ s with sp := a } : State).store a v).TopIs v := by
  refine ⟨?_, ?_⟩ <;> rw [State.store_sp]
  · rw [State.store_cfg]
    exact h
  · exact State.read_store_self (by exact h)

/-- The top of the stack is a matter of SP, memory and configuration. -/
theorem State.TopIs.congr {s t : State} {v : Word} (h : s.TopIs v) (hsp : t.sp = s.sp) (hmem : t.mem = s.mem)
    (hcfg : t.cfg = s.cfg) : t.TopIs v := by
  unfold State.TopIs
  rw [hsp, hmem, hcfg]
  exact h

/-- A pop gives the word on top, and nothing else happens (R140). -/
theorem State.TopIs.pop {s : State} {v : Word} (h : s.TopIs v) : pop s = .next (v, { s with sp := s.sp + 1 }) :=
  pop_stored h.1 h.2

/-- POP Rn gives Rn the word on top (R143). -/
theorem exec_pop_reg_of_top {s : State} {v : Word} (h : s.TopIs v) (n : RegNum) :
    exec (.pop (.reg n)) s = .next (({ s with sp := s.sp + 1 } : State).setReg n v) := by
  change andThen (Machine.pop s) (fun p => writeLoc (.reg n) p.1 p.2) = _
  rw [h.pop]
  rfl

/-- Settles O28: the pop reads the word that the push stored. -/
theorem popGivesBackThePushedWord : Obligations.PopGivesBackThePushedWord := by
  intro o n s t u l h hr hx
  have f := h.frame.afterLoc l
  rw [exec_eq_shape, shape, run_push h (accessible_of_isRam hr)] at hx
  cases hx
  have htop := topIs_of_store (s := t.afterLoc l) (t.valueAt l) (by rw [f.cfg]; exact hr)
  refine ⟨_, exec_pop_reg_of_top htop n, State.reg_setReg_self .., ?_, rfl, fun m hm => ?_⟩
  · rw [State.setReg_sp, State.store_sp]
    exact BitVec.sub_add_cancel ..
  · exact State.reg_setReg_ne _ _ hm.symm

/-- RET goes to the word on top (R221). -/
theorem exec_ret_of_top {s : State} {v : Word} (h : s.TopIs v) :
    exec .ret s = .next { s with sp := s.sp + 1, pc := v } := by
  rw [exec, execRet, h.pop, andThen_next]

/-- Settles O32: what the shapes of CALL and RET answer. -/
theorem callAndRetUseTheStack : Obligations.CallAndRetUseTheStack :=
  ⟨fun _ _ _ _ h hsp => (exec_eq_shape ..).trans (run_call h hsp),
    fun _ hsp => (exec_eq_shape ..).trans (run_ret hsp)⟩

/-- Settles O33: CALL leaves its return address on top. -/
theorem retReturnsAfterItsCall : Obligations.RetReturnsAfterItsCall := by
  intro dst s t u hx hr hsp hmem hcfg
  rw [exec_eq_shape, shape] at hx
  obtain ⟨a, w, hdst, rfl⟩ := run_call_inv hx
  have htop := topIs_of_store (s := w) (s.pc + BitVec.ofNat 16 dst.constWords)
    (by rw [(resolveDst_frame hdst).cfg]; exact hr)
  refine ⟨_, exec_ret_of_top (htop.congr hsp hmem hcfg), rfl, ?_, rfl, rfl, rfl⟩
  rw [hsp, State.store_sp]
  exact BitVec.sub_add_cancel ..

/-! ## Interrupts and control -/

/-- A pop of an accessible word (R140). -/
theorem pop_ok {s : State} (h : accessible s.cfg s.sp = true) :
    pop s = .next (s.peek s.sp, { s.afterRead s.sp with sp := s.sp + 1 }) := pop_eq_next.mpr ⟨h, rfl, rfl⟩

/-- A push on an accessible word (R140). -/
theorem push_ok {s : State} (v : Word) (h : accessible s.cfg (s.sp - 1) = true) :
    push v s = .next (({ s with sp := s.sp - 1 } : State).store (s.sp - 1) v) := push_eq_next.mpr ⟨h, rfl⟩

/-- The word of the saved flags by arithmetic (R257, D40). -/
theorem pswWord_eq (p : Psw) :
    pswWord p = BitVec.ofNat 16 (8 * p.sf.toNat + 4 * p.zf.toNat + 2 * p.of.toNat + p.cf.toNat) := by
  obtain ⟨cf, of, sf, zf⟩ := p
  cases cf <;> cases of <;> cases sf <;> cases zf <;> rfl

/-- RETI reads back the flags that entry saved (R232, D40). -/
theorem pswOfWord_pswWord (p : Psw) : pswOfWord (pswWord p) = p := by
  obtain ⟨cf, of, sf, zf⟩ := p
  cases cf <;> cases of <;> cases sf <;> cases zf <;> rfl

/-- The second pop of RETI with INT_SAVES_PSW: the flags popped before play no part in it (R232). -/
theorem pop_after_psw {t : State} (p : Psw) (h : accessible t.cfg t.sp = true) :
    pop { t with psw := p } = .next (t.peek t.sp, { t.afterRead t.sp with sp := t.sp + 1, psw := p }) := by
  have hsame : ({ t with psw := p } : State).afterRead t.sp = { t.afterRead t.sp with psw := p } :=
    State.mapSpPsw_afterRead id (fun _ => p) t t.sp
  rw [pop_ok (s := { t with psw := p }) h]
  exact congrArg (fun u : State => Host.Outcome.next (t.peek t.sp, { u with sp := t.sp + 1 })) hsame

/-- Settles O35: the pops of RETI in order. -/
theorem retiRestoresAndEnables : Obligations.RetiRestoresAndEnables := by
  refine fun s hsp => ⟨fun hno => ?_, ?_⟩
  · simp only [exec, execReti, returnFromInterrupt, hno, andThen_next, pop_ok hsp, Bool.false_eq_true, if_false]
  · intro hyes hsp' w t
    have hpop := pop_after_psw (t := t) (pswOfWord w)
      (by rw [show t.cfg = s.cfg from State.afterRead_cfg s s.sp]; exact hsp')
    have htwo : s.sp + 1 + 1 = s.sp + 2 := BitVec.add_assoc ..
    simp only [exec, execReti, returnFromInterrupt, hyes, andThen_next, pop_ok hsp, if_true]
    refine (congrArg (andThen · _) hpop).trans ?_
    rw [andThen_next, ← htwo]
    rfl

/-- Settles O36: the pushes of the entry in order, then the vector. -/
theorem interruptEntrySavesAndVectors : Obligations.InterruptEntrySavesAndVectors := by
  intro n s hsp hsp' hvec flags s₁ s₂ s₃
  have h1 : push s.pc s = .next s₁ := push_ok s.pc hsp
  have hcfg : s₁.cfg = s.cfg := State.store_cfg ..
  have hcfg₂ : s₂.cfg = s.cfg := by
    change (if s.cfg.intSavesPsw then _ else _ : State).cfg = _
    split_ifs
    · exact (State.store_cfg ..).trans hcfg
    · exact hcfg
  have h2 : (if s₁.cfg.intSavesPsw then push (pswWord s₁.psw) s₁ else .next s₁) = .next s₂ := by
    rw [hcfg]
    change _ = Host.Outcome.next (if s.cfg.intSavesPsw then _ else _)
    split_ifs with hsaves
    · have hsp₁ : s₁.sp - 1 = s.sp - 2 := by
        rw [show s₁.sp = s.sp - 1 from State.store_sp ..]
        exact BitVec.sub_sub ..
      have hpush := push_ok (s := s₁) (pswWord s₁.psw) (by rw [hcfg, hsp₁]; exact hsp' hsaves)
      rw [hpush, hsp₁, pswWord_eq, show s₁.psw = s.psw from State.store_psw ..]
    · rfl
  have h3 : memRead (vectorAddr n) s₃ = .next (s₃.peek (vectorAddr n), s₃.afterRead (vectorAddr n)) :=
    memRead_ok (by rw [show s₃.cfg = s.cfg from hcfg₂]; exact hvec)
  rw [interruptEntry, h1, andThen_next, h2, andThen_next]
  exact congrArg (andThen · _) h3

/-- What interrupt entry leaves in SP, memory and configuration: PC is pushed, then the flags if they
are saved; the vector is only read (R257). -/
theorem interruptEntry_inv {n : VecNum} {s t : State} (h : interruptEntry n s = .next t) :
    ∃ s₁ s₂, push s.pc s = .next s₁ ∧ (if s.cfg.intSavesPsw then push (pswWord s.psw) s₁ else .next s₁) = .next s₂ ∧
      t.sp = s₂.sp ∧ t.mem = s₂.mem ∧ t.cfg = s₂.cfg := by
  obtain ⟨s₁, h1, h⟩ := andThen_eq_next.mp h
  obtain ⟨s₂, h2, h⟩ := andThen_eq_next.mp h
  obtain ⟨⟨v, w⟩, h3, h⟩ := andThen_eq_next.mp h
  obtain ⟨-, rfl, rfl⟩ := memRead_eq_next.mp h3
  cases h
  have hs₁ := (push_eq_next.mp h1).2
  have hcfg : s₁.cfg = s.cfg := by rw [hs₁, State.store_cfg]
  have hpsw : s₁.psw = s.psw := by rw [hs₁, State.store_psw]
  rw [hcfg, hpsw] at h2
  exact ⟨s₁, s₂, h1, h2, State.afterRead_sp .., State.afterRead_mem .., State.afterRead_cfg ..⟩

/-- The stack after interrupt entry without saved flags: the interrupted PC on top. -/
theorem interruptEntry_top {n : VecNum} {s t : State} (h : interruptEntry n s = .next t)
    (hr : isRam s.cfg (s.sp - 1) = true) (hno : s.cfg.intSavesPsw = false) :
    t.TopIs s.pc ∧ t.sp = s.sp - 1 ∧ t.cfg = s.cfg := by
  obtain ⟨s₁, s₂, h1, h2, hsp, hmem, hcfg⟩ := interruptEntry_inv h
  obtain ⟨-, rfl⟩ := push_eq_next.mp h1
  rw [hno] at h2
  cases h2
  exact ⟨(topIs_of_store s.pc hr).congr hsp hmem hcfg, hsp.trans (State.store_sp ..), hcfg.trans (State.store_cfg ..)⟩

/-- The stack after interrupt entry with saved flags: the flags on top, and below them the interrupted
PC. -/
theorem interruptEntry_top_psw {n : VecNum} {s t : State} (h : interruptEntry n s = .next t)
    (hr : isRam s.cfg (s.sp - 1) = true) (hr' : isRam s.cfg (s.sp - 2) = true) (hyes : s.cfg.intSavesPsw = true) :
    t.TopIs (pswWord s.psw) ∧ ({ t with sp := t.sp + 1 } : State).TopIs s.pc ∧ t.sp = s.sp - 2 ∧ t.cfg = s.cfg := by
  obtain ⟨s₁, s₂, h1, h2, hsp, hmem, hcfg⟩ := interruptEntry_inv h
  obtain ⟨-, hs₁⟩ := push_eq_next.mp h1
  obtain ⟨-, hs₂⟩ := push_eq_next.mp (by simpa only [hyes, if_true] using h2)
  have hcfg₁ : s₁.cfg = s.cfg := by rw [hs₁, State.store_cfg]
  have hsp₁ : s₁.sp - 1 = s.sp - 2 := by
    rw [hs₁, State.store_sp]
    exact BitVec.sub_sub ..
  rw [hsp₁] at hs₂
  have hsp₂ : s₂.sp = s.sp - 2 := by rw [hs₂, State.store_sp]
  have hcfg₂ : s₂.cfg = s.cfg := by rw [hs₂, State.store_cfg, ← hcfg₁]
  have hback : s.sp - 2 + 1 = s.sp - 1 := by bv_omega
  have htop : s₂.TopIs (pswWord s.psw) := by
    rw [hs₂]
    exact topIs_of_store _ (by rw [hcfg₁]; exact hr')
  have hbelow : Memory.read s₂.mem (s.sp - 1).toNat = some s.pc := by
    have hne : (s.sp - 1).toNat ≠ (s.sp - 2).toNat := by bv_omega
    rw [hs₂, State.read_store_ne _ _ _ hne, hs₁]
    exact State.read_store_self (by exact hr)
  have hnext : ({ s₂ with sp := s₂.sp + 1 } : State).TopIs s.pc := by
    unfold State.TopIs
    rw [show ({ s₂ with sp := s₂.sp + 1 } : State).sp = s.sp - 1 from by rw [← hback, ← hsp₂]]
    exact ⟨by rw [hcfg₂]; exact hr, hbelow⟩
  exact ⟨htop.congr hsp hmem hcfg, hnext.congr (congrArg (· + 1) hsp) hmem hcfg, hsp.trans hsp₂, hcfg.trans hcfg₂⟩

/-- RETI without saved flags goes to the word on top (R232). -/
theorem exec_reti_of_top {s : State} {v : Word} (h : s.TopIs v) (hno : s.cfg.intSavesPsw = false) :
    exec .reti s = .next { s with sp := s.sp + 1, pc := v, ie := true } := by
  simp only [exec, execReti, returnFromInterrupt, hno, h.pop, andThen_next, Bool.false_eq_true, if_false]

/-- RETI with saved flags takes them from the top and PC from below (R232). -/
theorem exec_reti_of_top_psw {s : State} {v w : Word} (h : s.TopIs w)
    (h' : ({ s with sp := s.sp + 1 } : State).TopIs v) (hyes : s.cfg.intSavesPsw = true) :
    exec .reti s = .next { s with sp := s.sp + 1 + 1, psw := pswOfWord w, pc := v, ie := true } := by
  have hpop : pop { s with sp := s.sp + 1, psw := pswOfWord w } =
      .next (v, { s with sp := s.sp + 1 + 1, psw := pswOfWord w }) :=
    State.TopIs.pop (s := { s with sp := s.sp + 1, psw := pswOfWord w }) (h'.congr rfl rfl rfl)
  simp only [exec, execReti, returnFromInterrupt, hyes, h.pop, andThen_next, if_true]
  rw [hpop, andThen_next]

/-- Settles O39: RETI pops what the entry pushed. -/
theorem retiUndoesInterruptEntry : Obligations.RetiUndoesInterruptEntry := by
  intro n s t u h hr hr' hsp hmem hcfg
  cases hsaves : s.cfg.intSavesPsw with
  | false =>
    obtain ⟨htop, hsp', hcfg'⟩ := interruptEntry_top h hr hsaves
    refine ⟨_, exec_reti_of_top (htop.congr hsp hmem hcfg) (by rw [hcfg, hcfg', hsaves]), rfl, ?_, rfl, rfl, rfl⟩
    rw [hsp, hsp']
    exact BitVec.sub_add_cancel ..
  | true =>
    obtain ⟨htop, hnext, hsp', hcfg'⟩ := interruptEntry_top_psw h hr (hr' hsaves) hsaves
    refine ⟨_, exec_reti_of_top_psw (htop.congr hsp hmem hcfg) (hnext.congr (congrArg (· + 1) hsp) hmem hcfg)
      (by rw [hcfg, hcfg', hsaves]), rfl, ?_, rfl, rfl, pswOfWord_pswWord _⟩
    rw [hsp, hsp']
    bv_omega

/-- The check after an instruction that leaves a running machine with HAS_INT and a request waiting. -/
theorem interruptCheck_request {s : State} {n : VecNum} {later : List (Option VecNum)} (hint : s.cfg.hasInt = true)
    (hrun : s.halted = false) (h : s.intInputs = some n :: later) (b : Bool) :
    interruptCheck { s with ie := b } =
      if b then interruptEntry n { s with ie := b, intInputs := later }
      else .next { s with ie := b, intInputs := later } :=
  interruptCheck_of_request (s := { s with ie := b }) hint hrun h

/-- Settles O34: the four write what they say, and the check reads IE after them. -/
theorem controlInstructionsDoExactlyThis : Obligations.ControlInstructionsDoExactlyThis :=
  fun _ => ⟨rfl, rfl, rfl, rfl, fun _ _ hint hrun h =>
    ⟨interruptCheck_request hint hrun h true, interruptCheck_request hint hrun h false⟩⟩

end Sys2Proof.Machine
end

section
/-! PROOFS. Frames: what each shape of instruction leaves unchanged (spec R23, R28~R32, R110~R125, R140). -/

namespace Sys2Proof.Machine

/-! ## Stores -/

/-- Nothing stored, and then a store: only the store's location. -/
theorem StoredNowhere.then_onlyAt {s t u : State} {l : Loc} (h1 : StoredNowhere s t) (h2 : StoredOnlyAt t u l) :
    StoredOnlyAt s u l := by
  obtain ⟨hmem, new, hio, hno⟩ := h1
  obtain ⟨hmem', new', hio', hat⟩ := h2
  refine ⟨fun k hk => (hmem' k hk).trans (hmem k), new' ++ new, by rw [hio', hio, List.append_assoc], ?_⟩
  intro a v hv
  rcases List.mem_append.mp hv with hv | hv
  · exact hat a v hv
  · exact absurd hv (hno a v)

theorem StoredNowhere.trans {s t u : State} (h1 : StoredNowhere s t) (h2 : StoredNowhere t u) :
    StoredNowhere s u := by
  obtain ⟨hmem, hio⟩ := h1
  obtain ⟨hmem', hio'⟩ := h2
  exact ⟨fun k => (hmem' k).trans (hmem k), io_trans hio hio'⟩

/-- The operand phases store nothing. -/
theorem PhaseFrame.storedNowhere {inc : RegNum → Prop} {k : Nat} {s t : State} (f : PhaseFrame inc k s t) :
    StoredNowhere s t :=
  ⟨fun _ => by rw [f.mem], f.io⟩

/-- A read stores nothing. -/
theorem storedNowhere_afterRead (s : State) (a : Word) : StoredNowhere s (s.afterRead a) :=
  ⟨fun _ => by rw [State.afterRead_mem], afterRead_io s a⟩

/-- A store stores at its address only. -/
theorem storedOnlyAt_store (s : State) (a v : Word) : StoredOnlyAt s (s.store a v) (.mem a) := by
  refine ⟨fun k hk => State.read_store_ne s a v (hk a rfl), ?_⟩
  rw [State.store_ioTrace]
  split_ifs
  · exact ⟨[], rfl, by simp⟩
  · exact ⟨[.write a v], rfl, by simp +contextual⟩

/-- Writing a location stores at the location only. -/
theorem storedOnlyAt_put (s : State) (l : Loc) (v : Word) : StoredOnlyAt s (s.put l v) l := by
  cases l with
  | mem a => exact storedOnlyAt_store s a v
  | reg n | imm x => exact ⟨fun _ _ => rfl, [], rfl, by simp⟩

/-- Writing a location writes the register it names, if any. -/
theorem reg_put_ne (s : State) {l : Loc} (v : Word) {n : RegNum} (h : l ≠ .reg n) :
    (s.put l v).reg n = s.reg n := by
  cases l with
  | mem a => exact State.store_reg s a v n
  | reg m => exact State.reg_setReg_ne s v fun hm => h (by rw [hm])
  | imm x => rfl

/-! ## The frame of an instruction that stores one word -/

/-- An instruction moved PC, may have changed the registers named, and stored at the location only. -/
structure StoreFrame (may : RegNum → Prop) (k : Nat) (l : Loc) (s t : State) : Prop where
  pc : t.pc = s.pc + BitVec.ofNat 16 k
  regs : RegsSameBut s t may
  control : ControlSame s t
  stored : StoredOnlyAt s t l

/-- Writing a location from a state in which only PSW, SP and the count of draws differ from the state
after the operand phases. -/
theorem PhaseFrame.put {inc : RegNum → Prop} {k : Nat} {s u w : State} (f : PhaseFrame inc k s u)
    (hw : w = { u with sp := w.sp, psw := w.psw, draws := w.draws }) (l : Loc) (v : Word) :
    StoreFrame (fun n => l = .reg n ∨ inc n) k l s (w.put l v) where
  pc := by rw [State.put_pc, hw, f.pc]
  regs n hn := by
    rw [reg_put_ne w v fun h => hn (.inl h), hw]
    exact f.regs n fun h => hn (.inr h)
  control := by
    refine f.control.trans ?_
    unfold ControlSame
    rw [State.put_ie, State.put_halted, State.put_ir, State.put_micro, State.put_cfg, State.put_intInputs, hw]
    exact ⟨rfl, rfl, rfl, rfl, rfl, rfl⟩
  stored := by
    have hsame : StoredNowhere u w := by
      rw [hw]
      exact ⟨fun _ => rfl, [], rfl, by simp⟩
    exact (f.storedNowhere.trans hsame).then_onlyAt (storedOnlyAt_put w l v)

/-- A calculation on a location after the operand phases, stored or not, is still such a state. -/
theorem Calc.flagged_eq (c : Calc) (u : State) (l : Loc) :
    c.flagged u l =
      { u.afterLoc l with sp := (c.flagged u l).sp, psw := (c.flagged u l).psw, draws := (c.flagged u l).draws } :=
  rfl

/-- The frame of the instructions that calculate on one operand and store. -/
theorem run_update1_frame {c : Calc} {dst : Operand} {s s₁ t : State} {l : Loc}
    (h : (Shape.update1 c dst).run s = .next t) (hdst : resolveDst dst s = .next (l, s₁)) :
    StoreFrame (fun n => l = .reg n ∨ dst = .autoInc n) dst.constWords l s t ∧ t.sp = s.sp := by
  obtain ⟨l', u, hdst', rfl⟩ := run_update1_inv h
  cases hdst.symm.trans hdst'
  have f := ((resolveDst_frame hdst).afterLoc l).phase
  exact ⟨f.put (c.flagged_eq s₁ l) l _, (State.put_sp ..).trans f.sp⟩

/-- The frame of the instructions that calculate on two operands and store. -/
theorem run_update2_frame {c : Word → Calc} {src dst : Operand} {s s₁ s₂ t : State} {v : Word} {l : Loc}
    (h : (Shape.update2 c src dst).run s = .next t) (hsrc : readSource src s = .next (v, s₁))
    (hdst : resolveDst dst s₁ = .next (l, s₂)) :
    StoreFrame (fun n => l = .reg n ∨ src = .autoInc n ∨ dst = .autoInc n) (src.constWords + dst.constWords) l s t ∧
      t.sp = s.sp := by
  obtain ⟨v', s₁', l', u, hsrc', hdst', rfl⟩ := run_update2_inv h
  cases hsrc.symm.trans hsrc'
  cases hdst.symm.trans hdst'
  have f := (readSource_frame hsrc).phase.trans ((resolveDst_frame hdst).afterLoc l).phase
  exact ⟨f.put ((c v).flagged_eq s₂ l) l _, (State.put_sp ..).trans f.sp⟩

/-- The frame of MOV. -/
theorem run_move_frame {src dst : Operand} {s s₁ s₂ t : State} {v : Word} {l : Loc}
    (h : (Shape.move src dst).run s = .next t) (hsrc : readSource src s = .next (v, s₁))
    (hdst : resolveDst dst s₁ = .next (l, s₂)) :
    StoreFrame (fun n => l = .reg n ∨ src = .autoInc n ∨ dst = .autoInc n) (src.constWords + dst.constWords) l s t ∧
      t.sp = s.sp ∧ t.psw = s.psw := by
  obtain ⟨v', s₁', l', u, hsrc', hdst', rfl⟩ := run_move_inv h
  cases hsrc.symm.trans hsrc'
  cases hdst.symm.trans hdst'
  have f := operands_frame hsrc hdst
  exact ⟨f.put rfl l v, (State.put_sp ..).trans f.sp, (State.put_psw ..).trans f.psw⟩

/-- The frame of CMP and TEST. -/
theorem run_observe_frame {c : Word → Calc} {src dst : Operand} {s t : State}
    (h : (Shape.observe c src dst).run s = .next t) :
    ∃ u, PhaseFrame (fun n => src = .autoInc n ∨ dst = .autoInc n) (src.constWords + dst.constWords) s u ∧
      t = { u with psw := t.psw, draws := t.draws } := by
  obtain ⟨v, s₁, l, u, hsrc, hdst, rfl⟩ := run_observe_inv h
  exact ⟨_, (readSource_frame hsrc).phase.trans ((resolveDst_frame hdst).afterLoc l).phase, rfl⟩

/-- The frame of a jump, taken or not. -/
theorem run_jump_frame {cond : Psw → Bool} {dst : Operand} {s t : State}
    (h : (Shape.jump cond dst).run s = .next t) :
    ∃ u, PhaseFrame (fun n => dst = .autoInc n) dst.constWords s u ∧ t = { u with pc := t.pc } := by
  obtain ⟨a, u, hdst, rfl⟩ := run_jump_inv h
  refine ⟨u, (resolveDst_frame hdst).phase, ?_⟩
  split_ifs <;> rfl

/-- The frame of PUSH. -/
theorem run_push_frame {dst : Operand} {s t : State} (h : (Shape.push dst).run s = .next t) :
    StoreFrame (fun n => dst = .autoInc n) dst.constWords (.mem (s.sp - 1)) s t ∧ t.sp = s.sp - 1 ∧
      t.psw = s.psw := by
  obtain ⟨l, u, hdst, rfl⟩ := run_push_inv h
  have f := ((resolveDst_frame hdst).afterLoc l).phase
  have g := f.put (w := { u.afterLoc l with sp := s.sp - 1 }) rfl (.mem (s.sp - 1)) (u.valueAt l)
  refine ⟨⟨g.pc, fun n hn => g.regs n (by simpa using hn), g.control, g.stored⟩, State.store_sp .., ?_⟩
  exact (State.store_psw ..).trans f.psw

/-- The frame of CALL: as of PUSH, but for PC. -/
theorem run_call_frame {dst : Operand} {s t : State} (h : (Shape.call dst).run s = .next t) :
    RegsSameBut s t (fun n => dst = .autoInc n) ∧ t.sp = s.sp - 1 ∧ t.psw = s.psw ∧ ControlSame s t ∧
      StoredOnlyAt s t (.mem (s.sp - 1)) := by
  obtain ⟨a, u, hdst, rfl⟩ := run_call_inv h
  have f := (resolveDst_frame hdst).phase
  have g := f.put (w := { u with sp := s.sp - 1 }) rfl (.mem (s.sp - 1)) (s.pc + BitVec.ofNat 16 dst.constWords)
  exact ⟨fun n hn => g.regs n (by simpa using hn), State.store_sp .., (State.store_psw ..).trans f.psw, g.control,
    g.stored⟩

/-- The frame of POP. -/
theorem run_pop_frame {dst : Operand} {s s₁ t : State} {l : Loc} (h : (Shape.pop dst).run s = .next t)
    (hdst : resolveDst dst s = .next (l, s₁)) :
    StoreFrame (fun n => l = .reg n ∨ dst = .autoInc n) dst.constWords l s t ∧ t.sp = s.sp + 1 ∧
      t.psw = s.psw := by
  obtain ⟨l', u, hdst', rfl⟩ := run_pop_inv h
  cases hdst.symm.trans hdst'
  have f := ((resolveDst_frame hdst).afterLoc (.mem s.sp)).phase
  exact ⟨f.put rfl l _, State.put_sp .., (State.put_psw ..).trans f.psw⟩

/-- A read leaves the control state alone. -/
theorem controlSame_afterRead (s : State) (a : Word) : ControlSame s (s.afterRead a) :=
  ⟨State.afterRead_ie .., State.afterRead_halted .., State.afterRead_ir .., State.afterRead_micro ..,
    State.afterRead_cfg .., State.afterRead_intInputs ..⟩

/-- Setting IE keeps the rest of the control state the same. -/
theorem ControlSame.withIe {s t : State} (h : ControlSame s t) :
    ControlSame { s with ie := true } { t with ie := true } := by
  obtain ⟨-, hhalted, hir, hmicro, hcfg, hint⟩ := h
  exact ⟨rfl, hhalted, hir, hmicro, hcfg, hint⟩

/-- All that RETI can answer: one pop, or two with saved flags (R232). -/
theorem run_reti_inv {s t : State} (h : Shape.reti.run s = .next t) :
    (s.cfg.intSavesPsw = false ∧
      t = { s.afterRead s.sp with pc := s.peek s.sp, sp := s.sp + 1, ie := true }) ∨
    (s.cfg.intSavesPsw = true ∧ ∃ u, u = ({ s.afterRead s.sp with sp := s.sp + 1 } : State) ∧
      t = { u.afterRead u.sp with
        pc := u.peek u.sp, sp := u.sp + 1, psw := pswOfWord (s.peek s.sp), ie := true }) := by
  obtain ⟨s₁, h1, h⟩ := andThen_eq_next.mp h
  obtain ⟨⟨v, w⟩, h2, h⟩ := andThen_eq_next.mp h
  cases h
  cases hsaves : s.cfg.intSavesPsw with
  | false =>
    rw [hsaves] at h1
    cases h1
    obtain ⟨-, rfl, rfl⟩ := pop_eq_next.mp h2
    exact .inl ⟨rfl, rfl⟩
  | true =>
    rw [if_pos hsaves] at h1
    obtain ⟨⟨x, u⟩, h3, h4⟩ := andThen_eq_next.mp h1
    cases h4
    obtain ⟨-, rfl, rfl⟩ := pop_eq_next.mp h3
    have hsp := (pop_eq_next.mp h2).1
    refine .inr ⟨rfl, _, rfl, ?_⟩
    cases (pop_after_psw (t := { s.afterRead s.sp with sp := s.sp + 1 }) (pswOfWord (s.peek s.sp)) hsp).symm.trans h2
    rfl

/-! ## The frames -/

/-- Settles O40: the frame of MOV, and that of the calculations on two operands. -/
theorem doubleOperandStoreFrame : Obligations.DoubleOperandStoreFrame := by
  intro mk hmk src dst s s₁ s₂ t v l h hsrc hdst
  rw [exec_eq_shape] at h
  obtain rfl | hmk := List.mem_cons.mp hmk
  · obtain ⟨f, hsp, hpsw⟩ := run_move_frame h hsrc hdst
    exact ⟨f.regs, hsp, f.control, f.stored, fun _ => hpsw⟩
  · obtain ⟨c, hc⟩ := shape_update2 hmk
    have hne : mk src dst ≠ .mov src dst := fun he => by
      have := hc src dst
      rw [he] at this
      cases this
    rw [hc] at h
    obtain ⟨f, hsp⟩ := run_update2_frame h hsrc hdst
    exact ⟨f.regs, hsp, f.control, f.stored, fun he => absurd he hne⟩

/-- Settles O41: the frame of the observed calculations. -/
theorem compareAndTestFrame : Obligations.CompareAndTestFrame := by
  intro mk hmk src dst s t h
  obtain ⟨c, hc⟩ := shape_observe hmk
  rw [exec_eq_shape, hc] at h
  obtain ⟨u, f, ht⟩ := run_observe_frame h
  rw [ht]
  exact ⟨f.regs, f.sp, f.control, f.storedNowhere⟩

/-- Settles O42: the frame of the calculations on one operand. -/
theorem singleOperandStoreFrame : Obligations.SingleOperandStoreFrame := by
  intro mk hmk dst s s₁ t l h hdst
  obtain ⟨c, hc⟩ := shape_update1 hmk
  rw [exec_eq_shape, hc] at h
  obtain ⟨f, hsp⟩ := run_update1_frame h hdst
  exact ⟨f.regs, hsp, f.control, f.stored⟩

/-- Settles O43: the frame of the jumps, taken or not. -/
theorem jumpFrame : Obligations.JumpFrame := by
  intro e he dst s t h
  obtain ⟨cond, hshape, -⟩ := shape_jump he
  rw [exec_eq_shape, hshape] at h
  obtain ⟨u, f, ht⟩ := run_jump_frame h
  rw [ht]
  exact ⟨f.regs, f.sp, f.psw, f.control, f.storedNowhere⟩

/-- Settles O44: the frame of each of the five, read off its inversion. -/
theorem stackInstructionFrame : Obligations.StackInstructionFrame := by
  refine ⟨fun mk hmk dst s t h => ?_, fun dst s s₁ t l h hdst => ?_, fun s t h => ?_, fun s t h => ?_⟩
  · obtain rfl | rfl : mk = .push ∨ mk = .call := by simpa using hmk
    · obtain ⟨f, hsp, hpsw⟩ := run_push_frame h
      exact ⟨f.regs, hsp, hpsw, f.control, f.stored⟩
    · exact run_call_frame h
  · obtain ⟨f, hsp, hpsw⟩ := run_pop_frame h hdst
    exact ⟨f.regs, hsp, hpsw, f.control, f.stored⟩
  · obtain rfl := run_ret_inv h
    exact ⟨State.afterRead_regs .., rfl, State.afterRead_psw .., controlSame_afterRead s s.sp,
      storedNowhere_afterRead s s.sp⟩
  · obtain ⟨hno, rfl⟩ | ⟨hyes, u, hu, rfl⟩ := run_reti_inv h
    · exact ⟨State.afterRead_regs .., by rw [hno]; rfl, fun _ => State.afterRead_psw ..,
        (controlSame_afterRead s s.sp).withIe, storedNowhere_afterRead s s.sp⟩
    · have hregs : u.regs = s.regs := by rw [hu, State.afterRead_regs]
      have hsp : u.sp + 1 = s.sp + 2 := by
        rw [hu]
        exact BitVec.add_assoc ..
      have hcontrol : ControlSame s u := by
        rw [hu]
        exact controlSame_afterRead s s.sp
      have hstored : StoredNowhere s u := by
        rw [hu]
        exact storedNowhere_afterRead s s.sp
      refine ⟨(State.afterRead_regs ..).trans hregs, ?_, fun hno => ?_, ?_, ?_⟩
      · rw [if_pos hyes]
        exact hsp
      · rw [hyes] at hno
        cases hno
      · exact (hcontrol.trans (controlSame_afterRead u u.sp)).withIe
      · exact hstored.trans (storedNowhere_afterRead u u.sp)

end Sys2Proof.Machine
end

section
/-! PROOFS. Statements about all 38 instructions: each a case split over the shapes (spec R23, R28~R32). -/

namespace Sys2Proof.Machine

/-! ## Who writes the control state -/

/-- RETI leaves the control state alone but for IE, which it sets (R232). -/
theorem run_reti_control {s t : State} (h : Shape.reti.run s = .next t) : ControlSame { s with ie := true } t :=
  (stackInstructionFrame.2.2.2 s t h).2.2.2.1

/-- Every shape but RETI's and the control instructions' leaves the control state alone. -/
theorem run_controlSame {sh : Shape} {s t : State} (h : sh.run s = .next t) (hreti : sh ≠ .reti)
    (hcontrol : ∀ f b, sh ≠ .control f b) : ControlSame s t := by
  cases sh with
  | move src dst =>
    obtain ⟨v, s₁, l, u, hsrc, hdst, -⟩ := run_move_inv h
    exact (run_move_frame h hsrc hdst).1.control
  | update2 c src dst =>
    obtain ⟨v, s₁, l, u, hsrc, hdst, -⟩ := run_update2_inv h
    exact (run_update2_frame h hsrc hdst).1.control
  | observe c src dst =>
    obtain ⟨u, f, ht⟩ := run_observe_frame h
    rw [ht]
    exact f.control
  | update1 c dst =>
    obtain ⟨l, u, hdst, -⟩ := run_update1_inv h
    exact (run_update1_frame h hdst).1.control
  | jump cond dst =>
    obtain ⟨u, f, ht⟩ := run_jump_frame h
    rw [ht]
    exact f.control
  | push dst => exact (run_push_frame h).1.control
  | pop dst =>
    obtain ⟨l, u, hdst, -⟩ := run_pop_inv h
    exact (run_pop_frame h hdst).1.control
  | call dst =>
    obtain ⟨-, -, -, hsame, -⟩ := run_call_frame h
    exact hsame
  | ret =>
    rw [run_ret_inv h]
    exact controlSame_afterRead s s.sp
  | reti => exact absurd rfl hreti
  | control f b => exact absurd rfl (hcontrol f b)

/-- Settles O51: of the shapes only RETI's and the control instructions' write IE or `halted`. -/
theorem controlStateHasItsWriters : Obligations.ControlStateHasItsWriters := by
  intro i s t h
  rw [exec_eq_shape] at h
  cases i with
  | halt | nop | ei | di =>
    cases h
    simp
  | reti =>
    obtain ⟨hie, hhalted, hir, hmicro, hcfg, hint⟩ := run_reti_control h
    simp [hie, hhalted, hir, hmicro, hcfg, hint]
  | _ =>
    obtain ⟨hie, hhalted, hir, hmicro, hcfg, hint⟩ := run_controlSame h nofun nofun
    simp [hie, hhalted, hir, hmicro, hcfg, hint]

/-! ## Who uses SP -/

/-- The shapes that use SP. -/
def Shape.usesSp : Shape → Bool
  | .push _ | .pop _ | .call _ | .ret | .reti => true
  | .move _ _ | .update2 _ _ _ | .observe _ _ _ | .update1 _ _ | .jump _ _ | .control _ _ => false

/-- An instruction uses SP when its shape does. -/
theorem usesSp_eq_shape (i : Instr) : usesSp i = (shape i).usesSp := by cases i <;> rfl

/-- A shape that does not use SP leaves it alone. -/
theorem run_sp {sh : Shape} {s t : State} (h : sh.run s = .next t) (hsh : sh.usesSp = false) : t.sp = s.sp := by
  cases sh with
  | move src dst =>
    obtain ⟨v, s₁, l, u, hsrc, hdst, -⟩ := run_move_inv h
    exact (run_move_frame h hsrc hdst).2.1
  | update2 c src dst =>
    obtain ⟨v, s₁, l, u, hsrc, hdst, -⟩ := run_update2_inv h
    exact (run_update2_frame h hsrc hdst).2
  | observe c src dst =>
    obtain ⟨u, f, ht⟩ := run_observe_frame h
    rw [ht]
    exact f.sp
  | update1 c dst =>
    obtain ⟨l, u, hdst, -⟩ := run_update1_inv h
    exact (run_update1_frame h hdst).2
  | jump cond dst =>
    obtain ⟨u, f, ht⟩ := run_jump_frame h
    rw [ht]
    exact f.sp
  | control f b =>
    cases h
    rfl
  | push _ | pop _ | call _ | ret | reti => cases hsh

/-- The five that use SP move it by one word, RETI by one or two. -/
theorem run_sp_of_usesSp {sh : Shape} {s t : State} (h : sh.run s = .next t) (hsh : sh.usesSp = true) :
    t.sp = s.sp - 1 ∨ t.sp = s.sp + 1 ∨ (sh = .reti ∧ t.sp = s.sp + 2) := by
  cases sh with
  | push dst => exact .inl (run_push_frame h).2.1
  | pop dst =>
    obtain ⟨l, u, hdst, -⟩ := run_pop_inv h
    exact .inr (.inl (run_pop_frame h hdst).2.1)
  | call dst => exact .inl (run_call_frame h).2.1
  | ret =>
    rw [run_ret_inv h]
    exact .inr (.inl rfl)
  | reti =>
    obtain ⟨-, hsp, -⟩ := stackInstructionFrame.2.2.2 s t h
    rw [hsp]
    split_ifs
    · exact .inr (.inr ⟨rfl, rfl⟩)
    · exact .inr (.inl rfl)
  | move _ _ | update2 _ _ _ | observe _ _ _ | update1 _ _ | jump _ _ | control _ _ => cases hsh

section MapSpPsw
variable {f : Word → Word} {g g' : Psw → Psw} {s t : State}

/-- Two operands, and then whatever is done with them, with SP and PSW replaced. -/
theorem withOperands_mapSpPsw {src dst : Operand} {k : Word → Loc → State → Res State}
    (h : withOperands src dst s k = .next t)
    (hk : ∀ v l u, u.psw = s.psw → k v l u = .next t → k v l (u.mapSpPsw f g) = .next (t.mapSpPsw f g')) :
    withOperands src dst (s.mapSpPsw f g) k = .next (t.mapSpPsw f g') := by
  obtain ⟨v, s₁, l, u, hsrc, hdst, h⟩ := withOperands_eq_next h
  rw [withOperands, readSource_mapSpPsw f g hsrc, andThen_next, resolveDst_mapSpPsw f g hdst, andThen_next]
  exact hk v l u (operands_frame hsrc hdst).psw h

/-- One operand, and then whatever is done with it, with SP and PSW replaced. -/
theorem withDst_mapSpPsw {dst : Operand} {k : Loc → State → Res State} (h : withDst dst s k = .next t)
    (hk : ∀ l u, u.psw = s.psw → k l u = .next t → k l (u.mapSpPsw f g) = .next (t.mapSpPsw f g')) :
    withDst dst (s.mapSpPsw f g) k = .next (t.mapSpPsw f g') := by
  obtain ⟨l, u, hdst, h⟩ := withDst_eq_next h
  rw [withDst, resolveDst_mapSpPsw f g hdst, andThen_next]
  exact hk l u (resolveDst_frame hdst).psw h

variable (f g g') in
/-- From a state with the PSW `p` the calculation does the same when SP and PSW are replaced, with PSW
afterwards replaced in a way of its own. -/
def Calc.CommutesAt (c : Calc) (p : Psw) : Prop :=
  ∀ v (u : State), u.psw = p → c.run v (u.mapSpPsw f g) = ((c.run v u).1, (c.run v u).2.mapSpPsw f g')

/-- An update with SP and PSW replaced. -/
theorem updateLoc_mapSpPsw {l : Loc} {c : Calc} (hc : c.CommutesAt f g g' s.psw)
    (h : updateLoc l s c.run = .next t) : updateLoc l (s.mapSpPsw f g) c.run = .next (t.mapSpPsw f g') := by
  obtain ⟨⟨v, u⟩, hread, hwrite⟩ := andThen_eq_next.mp h
  have hpsw : u.psw = s.psw := by rw [(readLoc_eq_next hread).2, State.afterLoc_psw]
  rw [updateLoc, readLoc_mapSpPsw f g hread, andThen_next, hc v u hpsw]
  exact writeLoc_mapSpPsw f g' hwrite

/-- An observation with SP and PSW replaced. -/
theorem observeLoc_mapSpPsw {l : Loc} {c : Calc} (hc : c.CommutesAt f g g' s.psw)
    (h : observeLoc l s c.run = .next t) : observeLoc l (s.mapSpPsw f g) c.run = .next (t.mapSpPsw f g') := by
  obtain ⟨⟨v, u⟩, hread, hnext⟩ := andThen_eq_next.mp h
  have hpsw : u.psw = s.psw := by rw [(readLoc_eq_next hread).2, State.afterLoc_psw]
  cases hnext
  rw [observeLoc, readLoc_mapSpPsw f g hread, andThen_next, hc v u hpsw]

/-! The shapes with SP and PSW replaced; those that use SP, with PSW replaced only. -/

theorem run_move_mapSpPsw {src dst : Operand} (h : (Shape.move src dst).run s = .next t) :
    (Shape.move src dst).run (s.mapSpPsw f g) = .next (t.mapSpPsw f g) := by
  simp only [Shape.run] at h ⊢
  exact withOperands_mapSpPsw h fun v l u _ hk => writeLoc_mapSpPsw f g hk

theorem run_update2_mapSpPsw {c : Word → Calc} {src dst : Operand} (hc : ∀ v, (c v).CommutesAt f g g' s.psw)
    (h : (Shape.update2 c src dst).run s = .next t) :
    (Shape.update2 c src dst).run (s.mapSpPsw f g) = .next (t.mapSpPsw f g') := by
  simp only [Shape.run] at h ⊢
  exact withOperands_mapSpPsw h fun v l u hu hk => updateLoc_mapSpPsw (hu ▸ hc v) hk

theorem run_observe_mapSpPsw {c : Word → Calc} {src dst : Operand} (hc : ∀ v, (c v).CommutesAt f g g' s.psw)
    (h : (Shape.observe c src dst).run s = .next t) :
    (Shape.observe c src dst).run (s.mapSpPsw f g) = .next (t.mapSpPsw f g') := by
  simp only [Shape.run] at h ⊢
  exact withOperands_mapSpPsw h fun v l u hu hk => observeLoc_mapSpPsw (hu ▸ hc v) hk

theorem run_update1_mapSpPsw {c : Calc} {dst : Operand} (hc : c.CommutesAt f g g' s.psw)
    (h : (Shape.update1 c dst).run s = .next t) :
    (Shape.update1 c dst).run (s.mapSpPsw f g) = .next (t.mapSpPsw f g') := by
  simp only [Shape.run] at h ⊢
  exact withDst_mapSpPsw h fun l u hu hk => updateLoc_mapSpPsw (hu ▸ hc) hk

theorem run_jump_mapSpPsw {cond : Psw → Bool} {dst : Operand} (hcond : cond (g s.psw) = cond s.psw)
    (h : (Shape.jump cond dst).run s = .next t) :
    (Shape.jump cond dst).run (s.mapSpPsw f g) = .next (t.mapSpPsw f g) := by
  obtain ⟨a, u, hdst, rfl⟩ := run_jump_inv h
  rw [run_jump (resolveDst_mapSpPsw f g hdst), show (s.mapSpPsw f g).psw = g s.psw from rfl, hcond]
  split_ifs <;> rfl

theorem push_mapPsw {v : Word} (h : push v s = .next t) : push v (s.mapSpPsw id g) = .next (t.mapSpPsw id g) := by
  obtain ⟨ha, rfl⟩ := push_eq_next.mp h
  exact push_eq_next.mpr ⟨ha, (State.mapSpPsw_store id g { s with sp := s.sp - 1 } (s.sp - 1) v).symm⟩

theorem pop_mapPsw {v : Word} (h : pop s = .next (v, t)) : pop (s.mapSpPsw id g) = .next (v, t.mapSpPsw id g) := by
  obtain ⟨⟨x, u⟩, hread, hnext⟩ := andThen_eq_next.mp h
  cases hnext
  rw [pop, show (s.mapSpPsw id g).sp = s.sp from rfl, memRead_mapSpPsw id g hread]
  rfl

theorem run_push_mapPsw {dst : Operand} (h : (Shape.push dst).run s = .next t) :
    (Shape.push dst).run (s.mapSpPsw id g) = .next (t.mapSpPsw id g) := by
  simp only [Shape.run, execPush] at h ⊢
  refine withDst_mapSpPsw h fun l u _ hk => ?_
  obtain ⟨⟨v, w⟩, hread, hpush⟩ := andThen_eq_next.mp hk
  rw [readLoc_mapSpPsw id g hread, andThen_next]
  exact push_mapPsw hpush

theorem run_pop_mapPsw {dst : Operand} (h : (Shape.pop dst).run s = .next t) :
    (Shape.pop dst).run (s.mapSpPsw id g) = .next (t.mapSpPsw id g) := by
  simp only [Shape.run, execPop] at h ⊢
  refine withDst_mapSpPsw h fun l u _ hk => ?_
  obtain ⟨⟨v, w⟩, hpop, hwrite⟩ := andThen_eq_next.mp hk
  rw [pop_mapPsw hpop, andThen_next]
  exact writeLoc_mapSpPsw id g hwrite

theorem run_call_mapPsw {dst : Operand} (h : (Shape.call dst).run s = .next t) :
    (Shape.call dst).run (s.mapSpPsw id g) = .next (t.mapSpPsw id g) := by
  simp only [Shape.run, execCall] at h ⊢
  refine withDst_mapSpPsw h fun l u _ hk => ?_
  obtain ⟨a, ha, hk⟩ := andThen_eq_next.mp hk
  obtain ⟨w, hpush, hnext⟩ := andThen_eq_next.mp hk
  cases hnext
  rw [ha, andThen_next, show (u.mapSpPsw id g).pc = u.pc from rfl, push_mapPsw hpush]
  rfl

theorem run_ret_mapPsw (h : Shape.ret.run s = .next t) :
    Shape.ret.run (s.mapSpPsw id g) = .next (t.mapSpPsw id g) := by
  obtain ⟨⟨v, u⟩, hpop, hnext⟩ := andThen_eq_next.mp h
  cases hnext
  simp only [Shape.run, execRet, pop_mapPsw hpop]
  rfl

/-- RETI leaves PSW as it is, or pops it. -/
theorem run_reti_mapPsw (h : Shape.reti.run s = .next t) :
    Shape.reti.run (s.mapSpPsw id g) = .next (t.mapSpPsw id (if s.cfg.intSavesPsw then id else g)) := by
  obtain ⟨s₁, hpsw, h⟩ := andThen_eq_next.mp h
  obtain ⟨⟨v, u⟩, hpop, hnext⟩ := andThen_eq_next.mp h
  cases hnext
  have hpsw' : (if (s.mapSpPsw id g).cfg.intSavesPsw then
      andThen (pop (s.mapSpPsw id g)) fun p => .next { p.2 with psw := pswOfWord p.1 }
      else .next (s.mapSpPsw id g)) = .next (s₁.mapSpPsw id (if s.cfg.intSavesPsw then id else g)) := by
    rw [State.mapSpPsw_cfg]
    split_ifs at hpsw ⊢
    · obtain ⟨⟨x, w⟩, hpop', hnext'⟩ := andThen_eq_next.mp hpsw
      cases hnext'
      rw [pop_mapPsw hpop']
      rfl
    · cases hpsw
      rfl
  simp only [Shape.run, returnFromInterrupt]
  rw [hpsw', andThen_next, pop_mapPsw hpop]
  rfl

end MapSpPsw

/-- A shape that does not use SP does the same whatever SP holds. -/
theorem run_with_sp {sh : Shape} {s t : State} (h : sh.run s = .next t) (hsh : sh.usesSp = false) (v : Word) :
    sh.run (s.mapSpPsw (fun _ => v) id) = .next (t.mapSpPsw (fun _ => v) id) := by
  cases sh with
  | move src dst => exact run_move_mapSpPsw h
  | update2 c src dst => exact run_update2_mapSpPsw (fun _ _ _ _ => rfl) h
  | observe c src dst => exact run_observe_mapSpPsw (fun _ _ _ _ => rfl) h
  | update1 c dst => exact run_update1_mapSpPsw (fun _ _ _ => rfl) h
  | jump cond dst => exact run_jump_mapSpPsw rfl h
  | control ie b =>
    cases h
    rfl
  | push _ | pop _ | call _ | ret | reti => cases hsh

/-- Settles O50: the shapes that do not use SP leave it alone and do not see it; the frames of the others
say how far they move it. -/
theorem stackPointerIsUsedByFiveInstructions : Obligations.StackPointerIsUsedByFiveInstructions := by
  intro i s t h
  rw [exec_eq_shape] at h
  cases hsp : usesSp i with
  | false =>
    rw [usesSp_eq_shape] at hsp
    refine ⟨fun _ => ⟨run_sp h hsp, fun v => ?_⟩, .inl (run_sp h hsp)⟩
    rw [exec_eq_shape]
    exact run_with_sp h hsp v
  | true =>
    rw [usesSp_eq_shape] at hsp
    refine ⟨nofun, .inr ?_⟩
    obtain hdown | hup | ⟨hreti, htwo⟩ := run_sp_of_usesSp h hsp
    · exact .inl hdown
    · exact .inr (.inl hup)
    · refine .inr (.inr ⟨?_, htwo⟩)
      cases i with
      | reti => rfl
      | _ => cases hreti

/-! ## Who reads the flags -/

/-- A calculation does the same with either of two PSWs. -/
def Calc.ReadsAlike (c : Calc) (p q : Psw) : Prop :=
  ∀ v, c.result v p.cf = c.result v q.cf ∧ ∀ n, c.flags v p.cf n = c.flags v q.cf n

/-- A calculation reads no flag but CF (R28). -/
theorem Calc.readsAlike_of_cf {c : Calc} {p q : Psw} (h : p.cf = q.cf) : c.ReadsAlike p q :=
  fun v => ⟨by rw [h], fun n => by rw [h]⟩

/-- A shape does the same with either of two PSWs, but for flags it leaves alone. -/
def Shape.ReadsAlike (sh : Shape) (p q : Psw) : Prop :=
  match sh with
  | .update2 c _ _ | .observe c _ _ => ∀ v, (c v).ReadsAlike p q
  | .update1 c _ => c.ReadsAlike p q
  | .jump cond _ => cond p = cond q
  | .move _ _ | .push _ | .pop _ | .call _ | .ret | .reti | .control _ _ => True

/-- The flags an instruction is said to read are those its shape depends on (R28). -/
theorem shape_readsAlike {i : Instr} {p q : Psw} (h : Machine.ReadsAlike i p q) : (shape i).ReadsAlike p q := by
  cases i with
  | addc _ _ | subb _ _ => exact fun v => Calc.readsAlike_of_cf h
  | rcl _ | rcr _ => exact Calc.readsAlike_of_cf h
  | jc _ | jo _ | jz _ | js _ => exact h
  | jnc _ | jno _ | jnz _ | jns _ => exact congrArg (! ·) h
  | jmp _ => rfl
  | add _ _ | sub _ _ | and _ _ | or _ _ | xor _ _ | cmp _ _ | test _ _ => exact fun _ _ => ⟨rfl, fun _ => rfl⟩
  | sar _ | shl _ | shr _ | rol _ | ror _ | inc _ | dec _ | not _ => exact fun _ => ⟨rfl, fun _ => rfl⟩
  | mov _ _ | push _ | pop _ | call _ | halt | nop | ret | reti | ei | di => trivial

/-- A calculation that reads alike writes the same result and the same flags. -/
theorem Calc.commutesAt_of_readsAlike {c : Calc} {p q : Psw} (h : c.ReadsAlike p q) :
    c.CommutesAt id (fun _ => q) id p := by
  rintro v u rfl
  obtain ⟨hresult, hflags⟩ := h v
  simp only [Calc.run, show (u.mapSpPsw id fun _ => q).psw = q from rfl, ← hresult,
    show (u.mapSpPsw id fun _ => q).draws = u.draws from rfl, ← hflags]
  rfl

/-- With another PSW that reads alike a shape answers the same state, with the same PSW or with the other
one left alone. -/
theorem run_with_psw {sh : Shape} {s t : State} {p : Psw} (hp : sh.ReadsAlike s.psw p) (h : sh.run s = .next t) :
    ∃ q, (q = p ∨ q = t.psw) ∧ sh.run (s.mapSpPsw id fun _ => p) = .next (t.mapSpPsw id fun _ => q) := by
  have same {r : Res State} (hr : r = .next (t.mapSpPsw id id)) :
      ∃ q, (q = p ∨ q = t.psw) ∧ r = .next (t.mapSpPsw id fun _ => q) := ⟨t.psw, .inr rfl, hr⟩
  cases sh with
  | move src dst => exact ⟨p, .inl rfl, run_move_mapSpPsw h⟩
  | update2 c src dst => exact same (run_update2_mapSpPsw (fun v => Calc.commutesAt_of_readsAlike (hp v)) h)
  | observe c src dst => exact same (run_observe_mapSpPsw (fun v => Calc.commutesAt_of_readsAlike (hp v)) h)
  | update1 c dst => exact same (run_update1_mapSpPsw (Calc.commutesAt_of_readsAlike hp) h)
  | jump cond dst => exact ⟨p, .inl rfl, run_jump_mapSpPsw hp.symm h⟩
  | push dst => exact ⟨p, .inl rfl, run_push_mapPsw h⟩
  | pop dst => exact ⟨p, .inl rfl, run_pop_mapPsw h⟩
  | call dst => exact ⟨p, .inl rfl, run_call_mapPsw h⟩
  | ret => exact ⟨p, .inl rfl, run_ret_mapPsw h⟩
  | reti =>
    have hreti := run_reti_mapPsw (g := fun _ => p) h
    cases hsaves : s.cfg.intSavesPsw with
    | false =>
      rw [hsaves] at hreti
      exact ⟨p, .inl rfl, hreti⟩
    | true =>
      rw [hsaves] at hreti
      exact same hreti
  | control ie b =>
    cases h
    exact ⟨p, .inl rfl, rfl⟩

/-- Settles O49: the flags said to be read are those the shapes depend on. -/
theorem flagsAreReadByTheirReadersOnly : Obligations.FlagsAreReadByTheirReadersOnly := by
  intro i s t p hp h
  rw [exec_eq_shape] at h
  obtain ⟨q, hq, hrun⟩ := run_with_psw (shape_readsAlike hp) h
  exact ⟨q, hq, (exec_eq_shape ..).trans hrun⟩

end Sys2Proof.Machine
end

section
/-! PROOFS. The step and reset (spec R23, R37, R110, R230, R280). -/

namespace Sys2Proof.Machine

/-- Fetching the word of an instruction (R110). -/
theorem fetchInstr_ok {s : State} {i : Instr} (hpc : accessible s.cfg s.pc = true)
    (hi : decodeWord s.cfg (s.peek s.pc) = .ok i) :
    fetchInstr s = .next (i, { s.afterRead s.pc with pc := s.pc + 1, ir := s.peek s.pc }) :=
  fetchInstr_eq_next.mpr ⟨_, _, fetchWord_ok hpc, hi, rfl⟩

/-- Fetching the word of an instruction moves PC past it (R111). -/
theorem fetchInstr_pc {s t : State} {i : Instr} (h : fetchInstr s = .next (i, t)) : t.pc = s.pc + 1 := by
  obtain ⟨w, u, hw, -, rfl⟩ := fetchInstr_eq_next.mp h
  obtain ⟨-, -, rfl⟩ := fetchWord_eq_next.mp hw
  rfl

/-- A step runs the instruction fetched, then the check, then the end of the step (R110). -/
theorem step_eq {s : State} {i : Instr} (hrun : s.halted = false) (hpc : accessible s.cfg s.pc = true)
    (hi : decodeWord s.cfg (s.peek s.pc) = .ok i) :
    step s = andThen (exec i { s.afterRead s.pc with pc := s.pc + 1, ir := s.peek s.pc }) fun t =>
      andThen (interruptCheck t) fun u => .next (endOfStep u) := by
  rw [step, hrun, fetchInstr_ok hpc hi]
  rfl

/-- Settles O10. -/
theorem stepRunsTheDecodedInstruction : Obligations.StepRunsTheDecodedInstruction :=
  ⟨fun _ => rfl, fun _ _ => step_eq⟩

/-- The word 0000H is HALT on every machine (R94, R98). -/
theorem decodeWord_zero (c : Config) : decodeWord c 0x0000 = .ok .halt :=
  decodeWord_eq_ok.mpr ⟨by decide, rfl⟩

/-- Settles O11: after HALT no check is made, and the end of the step leaves all that a program sees. -/
theorem haltEndsTheRun : Obligations.HaltEndsTheRun := by
  refine ⟨fun s hrun hpc hzero => ?_, fun s hhalted => by rw [step, if_pos hhalted]⟩
  have hcheck := interruptCheck_without_check
    (s := { s.afterRead s.pc with pc := s.pc + 1, ir := s.peek s.pc, halted := true }) (.inr rfl)
  have hdecode : decodeWord s.cfg (s.peek s.pc) = .ok .halt := by rw [hzero, decodeWord_zero]
  refine ⟨_, (step_eq hrun hpc hdecode).trans
    (congrArg (andThen · fun u => .next (endOfStep u)) hcheck), rfl, rfl, State.afterRead_regs .., State.afterRead_sp ..,
    State.afterRead_psw .., State.afterRead_ie .., State.afterRead_mem .., State.afterRead_intInputs .., ?_⟩
  rw [← hzero]
  exact State.afterRead_ioTrace ..

/-- Settles O13: reset and the reset event write these fields themselves. -/
theorem resetEstablishesTheSpecValues : Obligations.ResetEstablishesTheSpecValues :=
  ⟨⟨rfl, rfl, rfl, rfl, rfl, rfl, rfl⟩, fun _ => ⟨rfl, rfl, rfl, rfl, rfl, rfl, rfl, rfl⟩⟩

/-- Settles O46: the reset memory lists nothing, and the full machine has every module. -/
theorem resetMeetsTheInvariant : Obligations.ResetMeetsTheInvariant where
  cfg := by decide
  mem := .nil
  memInRam := nofun
  ieNeedsInt _ := rfl
  ioNeedsInt _ := rfl
  spNeedsExt _ := rfl
  fetchReady _ := ⟨rfl, rfl, rfl⟩

/-! ## PC -/

/-- The shapes that write PC themselves. -/
def Shape.transfers : Shape → Bool
  | .jump _ _ | .call _ | .ret | .reti => true
  | .move _ _ | .update2 _ _ _ | .observe _ _ _ | .update1 _ _ | .push _ | .pop _ | .control _ _ => false

/-- How many constant words the operands of a shape have. -/
def Shape.constCount : Shape → Nat
  | .move src dst | .update2 _ src dst | .observe _ src dst => src.constWords + dst.constWords
  | .update1 _ dst | .jump _ dst | .push dst | .pop dst | .call dst => dst.constWords
  | .ret | .reti | .control _ _ => 0

/-- An instruction has the constant words of its shape (R89). -/
theorem constCount_eq_shape (i : Instr) : i.constCount = (shape i).constCount := by
  cases i <;> simp [Instr.constCount, Instr.src?, Instr.dst?, shape, Shape.constCount]

/-- An instruction that is no jump, CALL, RET or RETI writes PC by its operands only. -/
theorem shape_transfers {i : Instr} (h : i.isTransfer = false) (hret : i ≠ .ret) (hreti : i ≠ .reti) :
    (shape i).transfers = false := by
  cases i with
  | ret => exact absurd rfl hret
  | reti => exact absurd rfl hreti
  | jc _ | jnc _ | jo _ | jno _ | jz _ | jnz _ | js _ | jns _ | jmp _ | call _ => cases h
  | _ => rfl

/-- A shape that does not write PC itself leaves it past its operands' constants (R23, R111). -/
theorem run_pc {sh : Shape} {s t : State} (h : sh.run s = .next t) (hsh : sh.transfers = false) :
    t.pc = s.pc + BitVec.ofNat 16 sh.constCount := by
  cases sh with
  | move src dst =>
    obtain ⟨v, s₁, l, u, hsrc, hdst, -⟩ := run_move_inv h
    exact (run_move_frame h hsrc hdst).1.pc
  | update2 c src dst =>
    obtain ⟨v, s₁, l, u, hsrc, hdst, -⟩ := run_update2_inv h
    exact (run_update2_frame h hsrc hdst).1.pc
  | observe c src dst =>
    obtain ⟨u, f, ht⟩ := run_observe_frame h
    rw [ht]
    exact f.pc
  | update1 c dst =>
    obtain ⟨l, u, hdst, -⟩ := run_update1_inv h
    exact (run_update1_frame h hdst).1.pc
  | push dst => exact (run_push_frame h).1.pc
  | pop dst =>
    obtain ⟨l, u, hdst, -⟩ := run_pop_inv h
    exact (run_pop_frame h hdst).1.pc
  | control ie b =>
    cases h
    exact (BitVec.add_zero _).symm
  | jump _ _ | call _ | ret | reti => cases hsh

/-- Settles O12: the fetch adds 1 for the instruction word, the operands 1 for each constant. -/
theorem pcAdvancesByTheLength : Obligations.PcAdvancesByTheLength := by
  intro s t u i hfetch hexec htransfer hret hreti
  rw [exec_eq_shape] at hexec
  rw [run_pc hexec (shape_transfers htransfer hret hreti), fetchInstr_pc hfetch, Instr.length, constCount_eq_shape,
    BitVec.ofNat_add, BitVec.add_assoc]
  rfl

end Sys2Proof.Machine
end

section
/-! PROOFS. No outcome but the named ones, and what every access keeps (spec R53, R54, R60, R250, R251). -/

namespace Sys2Proof.Machine

/-- The part of the invariant that accesses touch: memory is canonical and lists only implemented RAM,
and without the I/O module no device was accessed. -/
def State.AccessInv (s : State) : Prop :=
  Memory.wf s.mem ∧ (∀ e ∈ s.mem, e.1 < s.cfg.ramWords) ∧ (s.cfg.hasInt = false → s.ioTrace = [])

/-- The configuration stays, and `AccessInv` is kept. -/
def Keeps (s t : State) : Prop := t.cfg = s.cfg ∧ (s.AccessInv → t.AccessInv)

theorem Keeps.refl (s : State) : Keeps s s := ⟨rfl, id⟩

theorem Keeps.trans {s t u : State} (h1 : Keeps s t) (h2 : Keeps t u) : Keeps s u :=
  ⟨h2.1.trans h1.1, h2.2 ∘ h1.2⟩

/-- The refusal of an access to an address that is neither RAM nor I/O (R60). -/
def Unimplemented (c : Config) (r : Refusal) : Prop := ∃ a, r = .unimplementedAddress a ∧ accessible c a = false

/-- An operation from the state `s` never faults, keeps what accesses keep in the state it answers (found
in its answer by `st`), and is refused only for a reason of `R` or for an unimplemented address. -/
def Orderly (R : Refusal → Prop) (s : State) {α : Type} (st : α → State) (o : Res α) : Prop :=
  match o with
  | .next a => Keeps s (st a)
  | .fault _ => False
  | .refused r => R r ∨ Unimplemented s.cfg r

variable {R : Refusal → Prop} {s : State}

/-- One orderly operation after another. -/
theorem Orderly.andThen {α β : Type} {st : α → State} {st' : β → State} {o : Res α} {k : α → Res β}
    (h : Orderly R s st o) (hk : ∀ a, o = .next a → Orderly R (st a) st' (k a)) :
    Orderly R s st' (andThen o k) := by
  cases o with
  | next a =>
    have hka := hk a rfl
    rw [andThen_next]
    cases hr : k a with
    | next b =>
      rw [hr] at hka
      exact Keeps.trans h hka
    | fault f =>
      rw [hr] at hka
      exact hka
    | refused r =>
      rw [hr] at hka
      exact hka.imp_right fun hu => by rw [← h.1]; exact hu
  | fault f => exact h
  | refused r => exact h

/-- An answer that keeps what accesses keep is orderly. -/
theorem Orderly.next {α : Type} {st : α → State} {a : α} (h : Keeps s (st a)) : Orderly R s st (.next a) := h

/-- Without the I/O module an accessible address is RAM (R54). -/
theorem isRam_of_accessible {c : Config} {a : Word} (h : accessible c a = true) (hint : c.hasInt = false) :
    isRam c a = true := by
  simpa [accessible, isIo, hint] using h

/-- A read keeps memory, and without the I/O module it is no I/O access. -/
theorem keeps_afterRead {s : State} {a : Word} (h : accessible s.cfg a = true) : Keeps s (s.afterRead a) := by
  refine ⟨State.afterRead_cfg s a, fun ⟨hwf, hram, hio⟩ => ⟨?_, ?_, fun hint => ?_⟩⟩
  · rw [State.afterRead_mem]
    exact hwf
  · rw [State.afterRead_mem, State.afterRead_cfg]
    exact hram
  · rw [State.afterRead_cfg] at hint
    rw [State.afterRead_ioTrace, if_pos (isRam_of_accessible h hint)]
    exact hio hint

/-- A store keeps memory canonical and lists implemented RAM only, and without the I/O module it is no I/O
access. -/
theorem keeps_store {s : State} {a : Word} (v : Word) (h : accessible s.cfg a = true) : Keeps s (s.store a v) := by
  refine ⟨State.store_cfg s a v, fun ⟨hwf, hram, hio⟩ => ⟨?_, fun e he => ?_, fun hint => ?_⟩⟩
  · rw [State.store_mem]
    split_ifs
    · exact Memory.wf_write _ _ hwf
    · exact hwf
  · rw [State.store_mem] at he
    rw [State.store_cfg]
    split_ifs at he with hr
    · rcases Memory.mem_write he with rfl | he
      · exact (isRam_iff ..).mp hr
      · exact hram e he
    · exact hram e he
  · rw [State.store_cfg] at hint
    rw [State.store_ioTrace, if_pos (isRam_of_accessible h hint)]
    exact hio hint

/-! Every operation that the meanings are made of is orderly. -/

theorem memRead_orderly (a : Word) (s : State) : Orderly R s Prod.snd (memRead a s) := by
  cases ha : accessible s.cfg a with
  | true =>
    rw [memRead_ok ha]
    exact keeps_afterRead ha
  | false =>
    rw [memRead, ha]
    exact .inr ⟨a, rfl, ha⟩

theorem memWrite_orderly (a v : Word) (s : State) : Orderly R s id (memWrite a v s) := by
  cases ha : accessible s.cfg a with
  | true =>
    rw [memWrite_ok v ha]
    exact keeps_store v ha
  | false =>
    rw [memWrite, ha]
    exact .inr ⟨a, rfl, ha⟩

theorem fetchWord_orderly (s : State) : Orderly R s Prod.snd (fetchWord s) :=
  (memRead_orderly s.pc s).andThen fun _ _ => Orderly.next (Keeps.refl _)

theorem push_orderly (v : Word) (s : State) : Orderly R s id (push v s) :=
  memWrite_orderly (s.sp - 1) v { s with sp := s.sp - 1 }

theorem pop_orderly (s : State) : Orderly R s Prod.snd (pop s) :=
  (memRead_orderly s.sp s).andThen fun _ _ => Orderly.next (Keeps.refl _)

theorem resolve_orderly (o : Operand) (s : State) : Orderly R s Prod.snd (resolve o s) := by
  cases o with
  | reg n | ind n | autoInc n => exact Orderly.next (Keeps.refl s)
  | imm | direct | indexed n | relative =>
    exact (fetchWord_orderly s).andThen fun _ _ => Orderly.next (Keeps.refl _)
  | indirect =>
    exact (fetchWord_orderly s).andThen fun p _ => (memRead_orderly p.1 p.2).andThen fun _ _ =>
      Orderly.next (Keeps.refl _)

theorem resolveDst_orderly (o : Operand) (s : State) (himm : o = .imm → R .immediateDestination) :
    Orderly R s Prod.snd (resolveDst o s) := by
  by_cases ho : o = .imm
  · subst ho
    exact .inl (himm rfl)
  · rw [resolveDst_eq ho]
    exact resolve_orderly o s

theorem readLoc_orderly (l : Loc) (s : State) : Orderly R s Prod.snd (readLoc l s) := by
  cases l with
  | mem a => exact memRead_orderly a s
  | reg n | imm v => exact Orderly.next (Keeps.refl s)

theorem readSource_orderly (o : Operand) (s : State) : Orderly R s Prod.snd (readSource o s) :=
  (resolve_orderly o s).andThen fun p _ => readLoc_orderly p.1 p.2

/-- A location that is no immediate value is written in good order. -/
theorem writeLoc_orderly {l : Loc} (hl : ∀ v, l ≠ .imm v) (v : Word) (s : State) :
    Orderly R s id (writeLoc l v s) := by
  cases l with
  | mem a => exact memWrite_orderly a v s
  | reg n => exact Orderly.next (Keeps.refl s)
  | imm x => exact absurd rfl (hl x)

theorem updateLoc_orderly {l : Loc} (hl : ∀ v, l ≠ .imm v) (c : Calc) (s : State) :
    Orderly R s id (updateLoc l s c.run) :=
  (readLoc_orderly l s).andThen fun p _ => writeLoc_orderly hl _ (c.run p.1 p.2).2

theorem observeLoc_orderly (l : Loc) (c : Calc) (s : State) : Orderly R s id (observeLoc l s c.run) :=
  (readLoc_orderly l s).andThen fun _ _ => Orderly.next (Keeps.refl _)

theorem withDst_orderly {dst : Operand} {s : State} {k : Loc → State → Res State}
    (himm : dst = .imm → R .immediateDestination)
    (hk : ∀ l u, resolveDst dst s = .next (l, u) → Orderly R u id (k l u)) : Orderly R s id (withDst dst s k) :=
  (resolveDst_orderly dst s himm).andThen fun q hq => hk q.1 q.2 hq

theorem withOperands_orderly {src dst : Operand} {s : State} {k : Word → Loc → State → Res State}
    (himm : dst = .imm → R .immediateDestination)
    (hk : ∀ v l s₁ u, resolveDst dst s₁ = .next (l, u) → Orderly R u id (k v l u)) :
    Orderly R s id (withOperands src dst s k) :=
  (readSource_orderly src s).andThen fun p _ => (resolveDst_orderly dst p.2 himm).andThen fun q hq =>
    hk p.1 q.1 p.2 q.2 hq

/-- The location of a destination is no immediate value. -/
theorem ne_imm_of_resolveDst {o : Operand} {s u : State} {l : Loc} (h : resolveDst o s = .next (l, u)) :
    ∀ v, l ≠ .imm v := by
  rintro v rfl
  exact resolveDst_not_imm h

/-- The target of a destination is refused for a register operand only (R200). -/
theorem target_orderly {o : Operand} {s u : State} {l : Loc} (h : resolveDst o s = .next (l, u))
    (hreg : ∀ n, o = .reg n → R .jumpToRegisterOperand) : Orderly R u (fun _ => u) (target l) := by
  cases l with
  | mem a => exact Orderly.next (Keeps.refl u)
  | reg n => exact .inl (hreg n (resolve_reg (resolveDst_eq_next.mp h).2))
  | imm v => exact absurd h resolveDst_not_imm

/-- The return from an interrupt: one or two pops (R232). -/
theorem returnFromInterrupt_orderly (s : State) : Orderly R s id (returnFromInterrupt s) := by
  have hpsw : Orderly R s id (if s.cfg.intSavesPsw then
      andThen (pop s) fun p => .next { p.2 with psw := pswOfWord p.1 } else .next s) := by
    split_ifs
    · exact (pop_orderly s).andThen fun _ _ => Orderly.next (Keeps.refl _)
    · exact Orderly.next (Keeps.refl s)
  exact hpsw.andThen fun s₁ _ => (pop_orderly s₁).andThen fun _ _ => Orderly.next (Keeps.refl _)

/-- Interrupt entry: one or two pushes and a read (R257). -/
theorem interruptEntry_orderly (n : VecNum) (s : State) : Orderly R s id (interruptEntry n s) := by
  refine (push_orderly s.pc s).andThen fun s₁ _ => ?_
  have hpsw : Orderly R s₁ id (if s₁.cfg.intSavesPsw then push (pswWord s₁.psw) s₁ else .next s₁) := by
    split_ifs
    · exact push_orderly _ s₁
    · exact Orderly.next (Keeps.refl s₁)
  exact hpsw.andThen fun s₂ _ => (memRead_orderly (vectorAddr n) { s₂ with ie := false }).andThen fun _ _ =>
    Orderly.next (Keeps.refl _)

/-- The interrupt check (R254). -/
theorem interruptCheck_orderly (s : State) : Orderly R s id (interruptCheck s) := by
  by_cases hno : s.cfg.hasInt = false ∨ s.halted = true
  · rw [interruptCheck_without_check hno]
    exact Orderly.next (Keeps.refl s)
  · obtain ⟨hint, hrun⟩ : s.cfg.hasInt = true ∧ s.halted = false := by simpa using hno
    cases h : s.intInputs with
    | nil =>
      rw [interruptCheck_of_no_answer hint hrun h]
      exact Orderly.next (Keeps.refl s)
    | cons answer later =>
      cases answer with
      | none =>
        rw [interruptCheck_of_no_request hint hrun h]
        exact Orderly.next (Keeps.refl s)
      | some n =>
        rw [interruptCheck_of_request hint hrun h]
        split_ifs
        · exact interruptEntry_orderly n { s with intInputs := later }
        · exact Orderly.next (Keeps.refl s)

/-- The destination operand of a shape. -/
def Shape.dst? : Shape → Option Operand
  | .move _ d | .update2 _ _ d | .observe _ _ d | .update1 _ d | .jump _ d | .push d | .pop d | .call d => some d
  | .ret | .reti | .control _ _ => none

/-- The shapes whose operand is a target. -/
def Shape.isTransfer : Shape → Bool
  | .jump _ _ | .call _ => true
  | .move _ _ | .update2 _ _ _ | .observe _ _ _ | .update1 _ _ | .push _ | .pop _ | .ret | .reti
  | .control _ _ => false

/-- Every shape is orderly, but for an immediate destination and a register target. -/
theorem run_orderly (sh : Shape) (s : State) (himm : sh.dst? = some .imm → R .immediateDestination)
    (hreg : ∀ n, sh.isTransfer = true → sh.dst? = some (.reg n) → R .jumpToRegisterOperand) :
    Orderly R s id (sh.run s) := by
  cases sh with
  | move src dst =>
    exact withOperands_orderly (himm <| congrArg some ·) fun v l s₁ u hdst =>
      writeLoc_orderly (ne_imm_of_resolveDst hdst) v u
  | update2 c src dst =>
    exact withOperands_orderly (himm <| congrArg some ·) fun v l s₁ u hdst =>
      updateLoc_orderly (ne_imm_of_resolveDst hdst) (c v) u
  | observe c src dst =>
    exact withOperands_orderly (himm <| congrArg some ·) fun v l _ u _ => observeLoc_orderly l (c v) u
  | update1 c dst =>
    exact withDst_orderly (himm <| congrArg some ·) fun l u hdst => updateLoc_orderly (ne_imm_of_resolveDst hdst) c u
  | jump cond dst =>
    simp only [Shape.run, jumpWhen]
    refine withDst_orderly (himm <| congrArg some ·) fun l u hdst =>
      Orderly.andThen (target_orderly hdst fun n hn => hreg n rfl (congrArg some hn)) fun a _ => ?_
    split_ifs <;> exact Orderly.next (Keeps.refl u)
  | push dst =>
    exact withDst_orderly (himm <| congrArg some ·) fun l u _ =>
      (readLoc_orderly l u).andThen fun p _ => push_orderly p.1 p.2
  | pop dst =>
    exact withDst_orderly (himm <| congrArg some ·) fun l u hdst =>
      (pop_orderly u).andThen fun p _ => writeLoc_orderly (ne_imm_of_resolveDst hdst) p.1 p.2
  | call dst =>
    simp only [Shape.run, execCall]
    exact withDst_orderly (himm <| congrArg some ·) fun l u hdst =>
      (target_orderly hdst fun n hn => hreg n rfl (congrArg some hn)).andThen fun a _ =>
        (push_orderly u.pc u).andThen fun _ _ => Orderly.next (Keeps.refl _)
  | ret => exact (pop_orderly s).andThen fun _ _ => Orderly.next (Keeps.refl _)
  | reti => exact returnFromInterrupt_orderly s
  | control ie b => exact Orderly.next (Keeps.refl s)

/-- An instruction has the destination of its shape. -/
theorem dst?_eq_shape (i : Instr) : i.dst? = (shape i).dst? := by cases i <;> rfl

/-- An instruction is a jump or CALL when its shape is. -/
theorem isTransfer_eq_shape (i : Instr) : i.isTransfer = (shape i).isTransfer := by cases i <;> rfl

/-- The refusals of an instruction that name no address (R251). -/
def FormRefusal (i : Instr) (r : Refusal) : Prop :=
  (r = .immediateDestination ∧ i.dstLegal = false) ∨
    (r = .jumpToRegisterOperand ∧ i.isTransfer = true ∧ ∃ n, i.dst? = some (.reg n))

/-- Every instruction is orderly. -/
theorem exec_orderly (i : Instr) (s : State) : Orderly (FormRefusal i) s id (exec i s) := by
  rw [exec_eq_shape]
  refine run_orderly (shape i) s (fun himm => .inl ⟨rfl, ?_⟩) (fun n htransfer hreg => .inr ⟨rfl, ?_, n, ?_⟩)
  · rw [Instr.dstLegal, dst?_eq_shape, himm]
    rfl
  · rw [isTransfer_eq_shape]
    exact htransfer
  · rw [dst?_eq_shape]
    exact hreg

end Sys2Proof.Machine
end

section
/-! PROOFS. Which steps complete, and what every step keeps (spec R5, R29, R31, R250, R251). -/

namespace Sys2Proof.Machine

/-- Fetching an instruction: what does not decode is refused (R98, R251). -/
theorem fetchInstr_orderly (s : State) : Orderly (fun _ => True) s Prod.snd (fetchInstr s) := by
  refine (fetchWord_orderly s).andThen fun p _ => ?_
  rcases decodeWord s.cfg p.1 with (_ | _) | i
  · exact .inl trivial
  · exact .inl trivial
  · exact Orderly.next (Keeps.refl p.2)

/-- A running machine's step is made of these three (R110). -/
theorem step_of_running {s : State} (hrun : s.halted = false) :
    step s = andThen (fetchInstr s) fun p => andThen (exec p.1 p.2) fun t =>
      andThen (interruptCheck t) fun u => .next (endOfStep u) := by
  rw [step, hrun]
  rfl

/-- A weaker demand on the refusals. -/
theorem Orderly.mono {R R' : Refusal → Prop} {s : State} {α : Type} {st : α → State} {o : Res α}
    (h : Orderly R s st o) (himp : ∀ r, R r → R' r) : Orderly R' s st o := by
  cases o with
  | refused r => exact h.imp_left (himp r)
  | next a => exact h
  | fault f => exact h

/-- The step of a running machine is orderly. -/
theorem step_orderly {s : State} (hrun : s.halted = false) : Orderly (fun _ => True) s id (step s) := by
  rw [step_of_running hrun]
  exact (fetchInstr_orderly s).andThen fun p _ =>
    ((exec_orderly p.1 p.2).mono fun _ _ => trivial).andThen fun t _ =>
      (interruptCheck_orderly t).andThen fun u _ => Orderly.next ⟨rfl, id⟩

/-- Settles O48: instructions are orderly, and so is the step of a running machine. -/
theorem noSynchronousExceptions : Obligations.NoSynchronousExceptions := by
  refine ⟨fun i s => ?_, fun s f hfault => ?_⟩
  · have horderly := exec_orderly i s
    refine ⟨fun f hfault => ?_, fun r hrefused => ?_⟩
    · rw [hfault] at horderly
      exact horderly
    · rw [hrefused] at horderly
      exact or_assoc.mp horderly
  · by_contra hrun
    have horderly := step_orderly (Bool.eq_false_iff.mpr hrun)
    rw [hfault] at horderly
    exact horderly

/-- With every address backed, an orderly operation without a reason to be refused answers. -/
theorem Orderly.answers {R : Refusal → Prop} {s : State} {α : Type} {st : α → State} {o : Res α}
    (h : Orderly R s st o) (hbacked : s.FullyBacked) (hR : ∀ r, ¬ R r) : ∃ a, o = .next a ∧ Keeps s (st a) := by
  cases o with
  | next a => exact ⟨a, rfl, h⟩
  | fault f => exact h.elim
  | refused r =>
    obtain hr | ⟨a, -, ha⟩ := h
    · exact absurd hr (hR r)
    · rw [accessible_of_full hbacked.1 hbacked.2] at ha
      cases ha

/-- What the statement of completeness allows is refused for no reason of the instruction. -/
theorem not_refuses {i : Instr} (hlegal : i.dstLegal = true)
    (hreg : i.isTransfer = true → ∀ n, i.dst? ≠ some (.reg n)) (r : Refusal) : ¬ FormRefusal i r := by
  rintro (⟨-, hillegal⟩ | ⟨-, htransfer, n, hn⟩)
  · rw [hlegal] at hillegal
    cases hillegal
  · exact hreg htransfer n hn

/-- Settles O47: the instruction answers, and after it the interrupt check does. -/
theorem everyInstructionCompletes : Obligations.EveryInstructionCompletes := by
  intro i s hbacked hlegal hreg
  have hexec (u : State) (hu : u.FullyBacked) := (exec_orderly i u).answers hu (not_refuses hlegal hreg)
  refine ⟨?_, fun hrun hdecode => ?_⟩
  · obtain ⟨t, ht, -⟩ := hexec s hbacked
    exact ⟨t, ht⟩
  · have hcfg := State.afterRead_cfg s s.pc
    obtain ⟨t, ht, hkeeps⟩ := hexec { s.afterRead s.pc with pc := s.pc + 1, ir := s.peek s.pc }
      (by simpa only [State.FullyBacked, hcfg] using hbacked)
    have htbacked : t.FullyBacked := by
      rw [State.FullyBacked, show t.cfg = s.cfg from hkeeps.1.trans hcfg]
      exact hbacked
    obtain ⟨u, hu, -⟩ := (interruptCheck_orderly (R := fun _ => False) t).answers htbacked fun _ => id
    refine ⟨endOfStep u, ?_⟩
    rw [step_eq hrun (accessible_of_full hbacked.1 hbacked.2 s.pc) hdecode, ht, andThen_next, hu, andThen_next]

/-- A step answers on a running machine only (R230). -/
theorem halted_of_step {s t : State} (h : step s = .next t) : s.halted = false := by
  by_contra hhalted
  rw [step, if_pos (Bool.eq_true_of_not_eq_false hhalted)] at h
  cases h

/-- The phases of a step that answers (R110). -/
theorem step_eq_next {s t : State} (h : step s = .next t) :
    ∃ i s₁ s₂ s₃, fetchInstr s = .next (i, s₁) ∧ exec i s₁ = .next s₂ ∧ interruptCheck s₂ = .next s₃ ∧
      t = endOfStep s₃ := by
  rw [step_of_running (halted_of_step h)] at h
  obtain ⟨⟨i, s₁⟩, hfetch, h⟩ := andThen_eq_next.mp h
  obtain ⟨s₂, hexec, h⟩ := andThen_eq_next.mp h
  obtain ⟨s₃, hcheck, h⟩ := andThen_eq_next.mp h
  cases h
  exact ⟨i, s₁, s₂, s₃, hfetch, hexec, hcheck, rfl⟩

/-- The fetch decodes an instruction of a present module, and leaves the configuration, SP and IE. -/
theorem fetchInstr_frame {s t : State} {i : Instr} (h : fetchInstr s = .next (i, t)) :
    i.WellFormed s.cfg = true ∧ t.cfg = s.cfg ∧ t.sp = s.sp ∧ t.ie = s.ie := by
  obtain ⟨w, u, hw, hdecode, rfl⟩ := fetchInstr_eq_next.mp h
  obtain ⟨-, -, rfl⟩ := fetchWord_eq_next.mp hw
  exact ⟨(decodeWord_eq_ok.mp hdecode).2, State.afterRead_cfg .., State.afterRead_sp .., State.afterRead_ie ..⟩

/-- An instruction of a machine without the I/O module leaves IE alone (R31, R93). -/
theorem exec_ie_of_no_int {i : Instr} {s t : State} {c : Config} (hwf : i.WellFormed c = true)
    (hint : c.hasInt = false) (h : exec i s = .next t) : t.ie = s.ie := by
  have hie := (controlStateHasItsWriters i s t h).1
  have hnot : i.module ≠ .int := by
    intro hmodule
    simp [Instr.WellFormed, hmodule, Config.has, hint] at hwf
  rwa [if_neg, if_neg] at hie
  · rintro rfl
    exact hnot rfl
  · rintro (rfl | rfl) <;> exact hnot rfl

/-- An instruction of a machine without the extension leaves SP alone (R29, R92). -/
theorem exec_sp_of_no_ext {i : Instr} {s t : State} {c : Config} (hwf : i.WellFormed c = true)
    (hext : c.hasExt = false) (hint : c.hasInt = false) (h : exec i s = .next t) : t.sp = s.sp := by
  have hbasic : i.module = .basic := by
    cases hmodule : i.module <;> simp [Instr.WellFormed, hmodule, Config.has, hext, hint] at hwf ⊢
  refine ((stackPointerIsUsedByFiveInstructions i s t h).1 ?_).1
  cases i with
  | push _ | pop _ | call _ | ret | reti => cases hbasic
  | _ => rfl

/-- Settles O45: every access keeps memory, and without its module an instruction that would change IE or
SP does not decode. -/
theorem stepKeepsTheInvariant : Obligations.StepKeepsTheInvariant := by
  intro s t hinv h
  obtain ⟨i, s₁, s₂, s₃, hfetch, hexec, hcheck, rfl⟩ := step_eq_next h
  obtain ⟨hwf, hcfg₁, hsp₁, hie₁⟩ := fetchInstr_frame hfetch
  have hkeeps : Keeps s (endOfStep s₃) := by
    have horderly := step_orderly (halted_of_step h)
    rwa [h] at horderly
  have hcfg₂ : s₂.cfg = s.cfg := (controlStateHasItsWriters i s₁ s₂ hexec).2.2.1.trans hcfg₁
  obtain ⟨hcfg, haccess⟩ := hkeeps
  obtain ⟨hmem, hram, hio⟩ := haccess ⟨hinv.mem, hinv.memInRam, hinv.ioNeedsInt⟩
  have hsame (hint : s.cfg.hasInt = false) : s₃ = s₂ := by
    rw [interruptCheck_without_check (.inl (hcfg₂ ▸ hint))] at hcheck
    cases hcheck
    rfl
  refine ⟨?_, hmem, hram, fun hint => ?_, hio, fun hext => ?_, fun hrun => ?_⟩
  · rw [hcfg]
    exact hinv.cfg
  · rw [hcfg] at hint
    show s₃.ie = false
    rw [hsame hint, exec_ie_of_no_int hwf hint hexec, hie₁]
    exact hinv.ieNeedsInt hint
  · rw [hcfg] at hext
    have hint : s.cfg.hasInt = false := by
      rw [Bool.eq_false_iff]
      intro hint
      exact absurd (hinv.cfg.2.2 hint) (Bool.eq_false_iff.mp hext)
    show s₃.sp = resetSp
    rw [hsame hint, exec_sp_of_no_ext hwf hext hint hexec, hsp₁]
    exact hinv.spNeedsExt hext
  · have hmicro : (endOfStep s₃).micro = _ := if_neg (Bool.eq_false_iff.mp hrun)
    rw [hmicro]
    exact ⟨rfl, rfl, rfl⟩

end Sys2Proof.Machine
end
